-- ==== Sys2Proof/Word.lean ====
section
/-! DEFINITION. The widths of PPMDEC's ports and fields (00_scope.md R9, R10; 30_encoding.md R60, R62). -/

namespace Sys2Proof

/-- The 32-bit control word `CW` (30_encoding.md R62). -/
abbrev CW := BitVec 32

/-- An unsigned 16-bit edge timestamp (00_scope.md R9, R14). -/
abbrev Ts := BitVec 16

/-- A signed 16-bit field or port, two's complement (20_memory.md R46); its value is `BitVec.toInt`. -/
abbrev S16 := BitVec 16

/-- An unsigned 8-bit field or port (00_scope.md R9). -/
abbrev U8 := BitVec 8

end Sys2Proof
end

