-- ==== Sys2Proof/Syntax.lean ====
section
/-! DEFINITION. The operations of PPMDEC, one constructor per row of spec/opcode_table.json. -/

namespace Sys2Proof

/-- What one control word asks of one cycle (30_encoding.md R62, R63). EDGE, TICK and ACK are independent strobes;
a term is named by the highest of the bits `RST`, `EDGE`, `TICK`, `ACK` that its word sets, and the lower strobes are its
operands, so that every control word without a reserved bit is exactly one term. DESIGN CHOICE, log 6. -/
inductive Instr where
  /-- RESET (42_control.md R130). The word's other strobes and its `TS` field are carried and ignored (R131). -/
  | reset (edge tick ack : Bool) (ts : Ts)
  /-- EDGE (40_decoder.md R80) at timestamp `ts`, with the strobes TICK and ACK of the same cycle. -/
  | edge (tick ack : Bool) (ts : Ts)
  /-- TICK without EDGE (41_quality.md R111), with the strobe ACK of the same cycle; `TS` is ignored (R64). -/
  | tick (ack : Bool) (ts : Ts)
  /-- ACK without EDGE and TICK (42_control.md R133); `TS` is ignored (R64). -/
  | ack (ts : Ts)
  /-- IDLE (42_control.md R132): no strobe; `TS` is ignored (R64). -/
  | idle (ts : Ts)
  deriving DecidableEq, Repr

/-- The operations that the rows of spec/opcode_table.json name (30_encoding.md R63). -/
inductive Op where
  | reset | edge | tick | ack | idle
  deriving DecidableEq, Repr

/-- The operations a cycle performs (30_encoding.md R63): RESET alone where it is asked for (42_control.md R131), else every
strobe that is set, else IDLE. -/
def Instr.performs : Instr → Op → Bool
  | .reset _ _ _ _, op => decide (op = .reset)
  | .edge t a _, op => decide (op = .edge) || (decide (op = .tick) && t) || (decide (op = .ack) && a)
  | .tick a _, op => decide (op = .tick) || (decide (op = .ack) && a)
  | .ack _, op => decide (op = .ack)
  | .idle _, op => decide (op = .idle)

end Sys2Proof
end

