-- ==== Sys2Proof/WellFormed.lean ====
section
/-! DEFINITION. Which control words a line of a test program can ask for (30_encoding.md R69). The hardware gives every
term of `Instr` its effect, well formed or not (42_control.md R131, R138): this check restricts programs, not the machine. -/

namespace Sys2Proof

/-- RESET shares its line with no other strobe (30_encoding.md R69; 93_implementation_defined.md U13). -/
def Instr.resetAlone : Instr → Bool
  | .reset e t a _ => !e && !t && !a
  | .edge _ _ _ | .tick _ _ | .ack _ | .idle _ => true

/-- Only the item `EDGE t` sets `CW[15:0]` (30_encoding.md R69). -/
def Instr.tsOnlyWithEdge : Instr → Bool
  | .edge _ _ _ => true
  | .reset _ _ _ ts | .tick _ ts | .ack ts | .idle ts => ts == 0

/-- The control words of program lines (30_encoding.md R69). -/
def Instr.wellFormed (i : Instr) : Bool := i.resetAlone && i.tsOnlyWithEdge

end Sys2Proof
end

