-- ==== Sys2Proof/Decode.lean ====
section
/-! DEFINITION. The control word (30_encoding.md R62, R63, R66): its decoder, total on 32 bits and refusing by name, its
encoder, and the rows of spec/opcode_table.json. -/

namespace Sys2Proof

/-- Why a control word has no meaning in the model. -/
inductive DecodeError where
  /-- `CW[27:16]` is not 0: reserved, to be refused by a model (30_encoding.md R66). -/
  | reservedBits (field : BitVec 12)
  deriving DecidableEq, Repr

/-- `CW[31]`, the strobe `rst` (30_encoding.md R62). -/
def CW.rst (cw : CW) : Bool := cw.getLsbD 31
/-- `CW[30]`, the strobe `edge_valid` (30_encoding.md R62). -/
def CW.edge (cw : CW) : Bool := cw.getLsbD 30
/-- `CW[29]`, the strobe `tick` (30_encoding.md R62). -/
def CW.tick (cw : CW) : Bool := cw.getLsbD 29
/-- `CW[28]`, the strobe `frame_ack` (30_encoding.md R62). -/
def CW.ack (cw : CW) : Bool := cw.getLsbD 28
/-- `CW[27:16]`, reserved (30_encoding.md R66). -/
def CW.reserved (cw : CW) : BitVec 12 := cw.extractLsb' 16 12
/-- `CW[15:0]`, the field `TS` (30_encoding.md R62, R64). -/
def CW.ts (cw : CW) : Ts := cw.extractLsb' 0 16

/-- The operation word read from `CW`'s strobes (30_encoding.md R63), whatever its reserved bits hold. -/
def decodeStrobes (cw : CW) : Instr :=
  if CW.rst cw then .reset (CW.edge cw) (CW.tick cw) (CW.ack cw) (CW.ts cw)
  else if CW.edge cw then .edge (CW.tick cw) (CW.ack cw) (CW.ts cw)
  else if CW.tick cw then .tick (CW.ack cw) (CW.ts cw)
  else if CW.ack cw then .ack (CW.ts cw)
  else .idle (CW.ts cw)

/-- The decoder: the term a control word stands for, or the refusal of 30_encoding.md R66. -/
def decode (cw : CW) : Except DecodeError Instr :=
  if CW.reserved cw = 0 then .ok (decodeStrobes cw) else .error (.reservedBits (CW.reserved cw))

/-- The layout of 30_encoding.md R62, bit 31 first, reserved field 0. -/
def packCW (rst edge tick ack : Bool) (ts : Ts) : CW :=
  BitVec.ofBool rst ++ BitVec.ofBool edge ++ BitVec.ofBool tick ++ BitVec.ofBool ack ++ (0 : BitVec 12) ++ ts

/-- The control word of a term (30_encoding.md R62). -/
def encode : Instr → CW
  | .reset edge tick ack ts => packCW true edge tick ack ts
  | .edge tick ack ts => packCW false true tick ack ts
  | .tick ack ts => packCW false false true ack ts
  | .ack ts => packCW false false false true ts
  | .idle ts => packCW false false false false ts

/-- A row of spec/opcode_table.json: a word matches it when `cw &&& mask = value`. -/
structure OpcodeRow where
  op : Op
  mask : CW
  value : CW
  deriving DecidableEq, Repr

/-- The five rows of spec/opcode_table.json, in its order. -/
def opcodeTable : List OpcodeRow :=
  [⟨.reset, 0x8FFF0000, 0x80000000⟩, ⟨.edge, 0xCFFF0000, 0x40000000⟩, ⟨.tick, 0xAFFF0000, 0x20000000⟩,
    ⟨.ack, 0x9FFF0000, 0x10000000⟩, ⟨.idle, 0xFFFF0000, 0x00000000⟩]

/-- A control word matches a row of the table (30_encoding.md R63). -/
def OpcodeRow.holds (r : OpcodeRow) (cw : CW) : Bool := cw &&& r.mask == r.value

/-- The control word whose bits below `nbits` are those of `w` and whose other bits are 0: PPMDEC has one fixed-width
word and no bytes (30_encoding.md R68; 20_memory.md R46). -/
def tableCW (nbits w : Nat) : CW := BitVec.ofNat 32 (w % 2 ^ nbits)

/-- The term that the decoder reads from a word of spec/opcode_table.json, none where it refuses. -/
def decodeTableWord (nbits w : Nat) : Option Instr :=
  match decode (tableCW nbits w) with
  | .ok i => some i
  | .error _ => none

end Sys2Proof
end

