-- ==== Sys2Proof/Config.lean ====
section
/-! DEFINITION. The parameter record `CFG` (00_scope.md R7), and the values the spec leaves open, as opaque
constants without a body. -/

namespace Sys2Proof

/-- The parameter record `CFG` of 00_scope.md R7, one field per row of its table. -/
structure Cfg where
  /-- `TS_BITS`: width of a timestamp. -/
  tsBits : Nat
  /-- `SYNC_GAP`: a width strictly greater is a sync gap. -/
  syncGap : Nat
  /-- `PULSE_MIN`: lowest width of a data pulse, inclusive. -/
  pulseMin : Nat
  /-- `PULSE_MAX`: highest width of a data pulse, inclusive. -/
  pulseMax : Nat
  /-- `DIFF_Q`: quantisation step of the derivative. -/
  diffQ : Int
  /-- `FRAME_READY_IDX`: index at or above which the frame-ready mark is set. -/
  frameReadyIdx : Nat
  /-- `QUAL_INC`: quality increment per valid pulse. -/
  qualInc : Nat
  /-- `QUAL_MAX`: quality ceiling. -/
  qualMax : Nat
  /-- `QUAL_DEC`: quality decrement per tick. -/
  qualDec : Nat
  /-- `SIG_OK_MIN`: quality must be strictly above this for "signal present". -/
  sigOkMin : Nat
  /-- `N` (`PPM_NUM_INPUTS`): number of channel slots. -/
  n : Nat
  deriving DecidableEq, Repr

/-- `CFG` at the normative values of 00_scope.md R7, for `n` channel slots. -/
@[reducible] def Config.cfg (n : Nat) : Cfg where
  tsBits := 16
  syncGap := 8000
  pulseMin := 1500
  pulseMax := 4500
  diffQ := 3
  frameReadyIdx := 4
  qualInc := 10
  qualMax := 200
  qualDec := 1
  sigOkMin := 100
  n := n

/-- The legal slot counts: `1 <= N <= 255` (00_scope.md R8). -/
abbrev Config.legalCount (n : Nat) : Prop := 1 ≤ n ∧ n ≤ 255

/-- How many channel slots the hardware has after slot 0: open (00_scope.md R8, 92_eei_decisions.md D17). -/
opaque Config.slotsAfterTheFirst : Fin 255

/-- `N` (`PPM_NUM_INPUTS`), a parameter the spec gives no value: 1 to 255 (00_scope.md R8). -/
def Config.ppmNumInputs : Nat := Config.slotsAfterTheFirst.val + 1

/-- What a stored pulse writes to `dif` when the quantised derivative of the half width `h` against the old
value does not fit 16 bits. The spec states no result there: 40_decoder.md R89 shows that it fits only for a slot
that holds 0 or 750 to 2250, which 10_state.md R26 gives from the first RESET on. DESIGN CHOICE, log 4. -/
opaque Config.unstatedDif (h old : Int) : S16

/-- `S.prev_ts` at power-up, before the first RESET: a free draw (10_state.md R34). -/
opaque Config.powerOnPrevTs : Ts
/-- `S.idx` at power-up: a free draw (10_state.md R34). -/
opaque Config.powerOnIdx : U8
/-- `S.cap[i]` at power-up: a free draw for each `i` (10_state.md R34). -/
opaque Config.powerOnCap (i : Nat) : S16
/-- `S.dif[i]` at power-up: a free draw for each `i` (10_state.md R34). -/
opaque Config.powerOnDif (i : Nat) : S16
/-- `S.frame_ready` at power-up: a free draw (10_state.md R34). -/
opaque Config.powerOnFrameReady : Bool
/-- `S.qual` at power-up: a free draw (10_state.md R34). -/
opaque Config.powerOnQual : U8

end Sys2Proof
end

