-- ==== Sys2Proof/Machine/State.lean ====
section
/-! DEFINITION. The state of PPMDEC (10_state.md R20), its ports (30_encoding.md R60, R61), what the machine starts
from, and the reasons a step can stop. -/

namespace Sys2Proof.Machine

/-- One channel slot (10_state.md R23). -/
structure Slot where
  /-- `CaptureValue`: the latest half width. -/
  cap : S16
  /-- `PrevCaptureValue`: the quantised derivative. -/
  dif : S16
  deriving DecidableEq, Repr

/-- The slot after RESET, and what the read port gives out of range (10_state.md R30; 42_control.md R137). -/
def Slot.zero : Slot := ⟨0, 0⟩

/-- The spec's state record `S`: exactly the fields of 10_state.md R20. `N` is the length of `slots`, since `S.cap` and
`S.dif` run over `0..N-1`. -/
structure Regs where
  /-- `S.prev_ts` (R21). -/
  prevTs : Ts
  /-- `S.idx` (R22). -/
  idx : U8
  /-- `S.cap[i]` and `S.dif[i]` for `0 <= i < N` (R23). -/
  slots : List Slot
  /-- `S.frame_ready` (R24). -/
  frameReady : Bool
  /-- `S.qual` (R25). -/
  qual : U8
  deriving DecidableEq, Repr

/-- `CFG` of the hardware whose slot array this is (00_scope.md R7, R8). -/
@[reducible] def Regs.cfg (s : Regs) : Cfg := Config.cfg s.slots.length

/-- The reset values of 10_state.md R30, for `n` channel slots. -/
def Regs.reset (n : Nat) : Regs where
  prevTs := 0
  idx := 0
  slots := List.replicate n Slot.zero
  frameReady := false
  qual := 0

/-- `ev_class` (30_encoding.md R67). The codes that are never driven are no constructors (93_implementation_defined.md U3). -/
inductive EvClass where
  /-- no edge this cycle -/
  | none
  /-- neither a sync gap nor a data pulse -/
  | noise
  /-- a sync gap -/
  | sync
  /-- a data pulse written to slot `S.idx` -/
  | stored
  /-- a data pulse with no slot left -/
  | overrun
  deriving DecidableEq, Repr

/-- Four control values: roll, pitch, yaw, throttle (30_encoding.md R60). -/
structure Ctl where
  roll : S16
  pitch : S16
  yaw : S16
  throttle : S16
  deriving DecidableEq, Repr

/-- All four values 0. -/
def Ctl.zero : Ctl := ⟨0, 0, 0, 0⟩

/-- The data ports, which carry no operation (30_encoding.md R62). -/
structure Ports where
  rdIdx : U8
  ctlIn : Ctl
  deriving DecidableEq, Repr

/-- The data ports of a line without `READ` and `CTL` (30_encoding.md R69). -/
def Ports.quiet : Ports := ⟨0, Ctl.zero⟩

/-- What the agents present in one cycle: the control word, which packs the strobes (30_encoding.md R62), and the data ports. -/
structure PortSample where
  cw : CW
  ports : Ports
  deriving DecidableEq, Repr

/-- The input record `I` of one cycle (30_encoding.md R60). -/
structure Input where
  rst : Bool
  edgeValid : Bool
  edgeTs : Ts
  tick : Bool
  frameAck : Bool
  rdIdx : U8
  ctlIn : Ctl
  deriving DecidableEq, Repr

/-- The output record `O` of one cycle (30_encoding.md R61). -/
structure Output where
  rdCap : S16
  rdDif : S16
  rdOob : Bool
  status : BitVec 32
  qual : U8
  failsafe : Bool
  sigOk : Bool
  updateEn : Bool
  frameReady : Bool
  ctlOut : Ctl
  evClass : EvClass
  evWidth : BitVec 16
  deriving DecidableEq, Repr

/-- A state of the model: the spec's `S`, and the model's own fields, which stand for the input and the output of the
spec's `S, I -> S', O` (00_scope.md R13). DESIGN CHOICE, log 2. -/
structure State where
  /-- The spec's `S`. -/
  regs : Regs
  /-- What the data ports carry in the cycle being executed (the model's own). -/
  ports : Ports
  /-- What the agents present in the cycles to come, oldest first (the model's own). -/
  inputs : List PortSample
  /-- The outputs of the cycles executed, newest first (the model's own): the observation of 00_scope.md R13. -/
  observed : List Output
  deriving DecidableEq, Repr

/-- Why a step faults: never. "PPMDEC raises no exception, trap or fault, and has no error state" (60_exceptions.md R150). -/
inductive Fault where
  deriving DecidableEq, Repr

/-- Why a step is refused. -/
inductive Refusal where
  /-- Raised by no arm of `exec`: every operation has its meaning. Safe: the machine stops. -/
  | notModelled (mnemonic : String)
  /-- Raised by `step` for a control word whose bits 27:16 are not 0, as 30_encoding.md R66 asks of a model. Safe: the
  hardware ignores the bits and goes on, the model stops. -/
  | reservedBits (field : BitVec 12)
  deriving DecidableEq, Repr

/-- The machine right after RESET, for `n` channel slots, with no input presented and no cycle observed yet. -/
def State.resetFor (n : Nat) : State where
  regs := Regs.reset n
  ports := Ports.quiet
  inputs := []
  observed := []

/-- The machine right after reset (10_state.md R30), with as many slots as the hardware has. -/
def State.reset : State := State.resetFor Config.ppmNumInputs

/-- The machine at power-up, before the first RESET: every field of `S` a free draw (10_state.md R34). -/
def State.powerUp : State where
  regs :=
    { prevTs := Config.powerOnPrevTs
      idx := Config.powerOnIdx
      slots := (List.range Config.ppmNumInputs).map fun i => ⟨Config.powerOnCap i, Config.powerOnDif i⟩
      frameReady := Config.powerOnFrameReady
      qual := Config.powerOnQual }
  ports := Ports.quiet
  inputs := []
  observed := []

end Sys2Proof.Machine
end

