-- ==== Sys2Proof/Machine/Operands.lean ====
section
/-! DEFINITION. What a cycle takes in: the port sample it fetches and the input record it stands for
(30_encoding.md R60, R62, R64, R65). -/

namespace Sys2Proof.Machine

/-- A cycle in which no agent presents anything: no strobe, and the data ports of a line without `READ` and `CTL`
(30_encoding.md R69). DESIGN CHOICE, log 3. -/
def PortSample.quiet : PortSample := ⟨0, Ports.quiet⟩

/-- The input record that a port sample stands for (30_encoding.md R60, R62). The reserved bits give no field. -/
def PortSample.input (d : PortSample) : Input where
  rst := CW.rst d.cw
  edgeValid := CW.edge d.cw
  edgeTs := CW.ts d.cw
  tick := CW.tick d.cw
  frameAck := CW.ack d.cw
  rdIdx := d.ports.rdIdx
  ctlIn := d.ports.ctlIn

/-- The port sample of the next cycle: the oldest one not yet presented, or a quiet one. -/
def State.nextSample (s : State) : PortSample := s.inputs.headD PortSample.quiet

/-- The state in which the next cycle's operation runs: its data ports are driven and its sample is taken off the list. -/
def State.sampled (s : State) : State := { s with ports := s.nextSample.ports, inputs := s.inputs.tail }

/-- The state in which the agents present `d` next, before all they would have presented. -/
def State.present (s : State) (d : PortSample) : State := { s with inputs := d :: s.inputs }

end Sys2Proof.Machine
end

