-- ==== Sys2Proof/Machine/Flags.lean ====
section
/-! DEFINITION. The frame-ready mark, the quality counter, the status word and the gating outputs
(10_state.md R28; 41_quality.md R110 to R118; 42_control.md R133). -/

namespace Sys2Proof.Machine

/-- `qual_next` (41_quality.md R110): the increment with its clamp, then the decrement. -/
def qualNext (cfg : Cfg) (q : Nat) (qinc tick : Bool) : Nat :=
  let q1 := if qinc then min (q + cfg.qualInc) cfg.qualMax else q
  if tick && decide (0 < q1) then q1 - cfg.qualDec else q1

/-- The next value of `S.frame_ready` (42_control.md R133): a set wins over an acknowledgement. -/
def frameReadyNext (frSet frameReady ack : Bool) : Bool := frSet || (frameReady && !ack)

/-- `FAILSAFE` (41_quality.md R115). -/
def failsafe (s : Regs) : Bool := s.qual == 0

/-- `SIG_OK` (41_quality.md R116): strictly above the minimum (90_conflicts.md C2). -/
def sigOk (cfg : Cfg) (s : Regs) : Bool := decide (cfg.sigOkMin < s.qual.toNat)

/-- `UPDATE_EN` (41_quality.md R117). -/
def updateEn (s : Regs) : Bool := s.frameReady && !failsafe s

/-- The word `STATUS` (10_state.md R28), bit 31 first; bits 31:20 are hardwired 0. -/
def statusWord (cfg : Cfg) (s : Regs) : BitVec 32 :=
  (0 : BitVec 12) ++ BitVec.ofBool (updateEn s) ++ BitVec.ofBool (sigOk cfg s) ++ BitVec.ofBool (failsafe s) ++
    BitVec.ofBool s.frameReady ++ s.idx ++ s.qual

/-- The failsafe gate (41_quality.md R118). -/
def gate (s : Regs) (ctlIn : Ctl) : Ctl := if s.qual == 0 then Ctl.zero else ctlIn

/-- The code of `ev_class` (30_encoding.md R67). -/
def EvClass.code : EvClass → BitVec 3
  | .none => 0b000
  | .noise => 0b001
  | .sync => 0b010
  | .stored => 0b011
  | .overrun => 0b100

end Sys2Proof.Machine
end

