-- ==== Sys2Proof/Machine/Ops.lean ====
section
/-! DEFINITION. The operations over the slot array and the registers (00_scope.md R11, R12; 40_decoder.md R82 to R92;
42_control.md R130, R136, R137). PPMDEC takes no exception (60_exceptions.md R150, R155), so there is no operation for
taking one. -/

namespace Sys2Proof.Machine

/-- `trunc_div` (00_scope.md R11): integer division rounding toward zero. -/
def truncDiv (a b : Int) : Int := a.tdiv b

/-- `SlotRead(i)` (00_scope.md R12): both fields of slot `i`. Indices at or above `N` select nothing (20_memory.md R40);
the read port answers for them by 42_control.md R137. -/
def slotRead (s : Regs) (i : Nat) : Slot := s.slots[i]?.getD Slot.zero

/-- `SlotWrite(i, c, d)` (00_scope.md R12; 20_memory.md R42): both fields of slot `i` in one cycle. -/
def slotWrite (s : Regs) (i : Nat) (c d : S16) : Regs := { s with slots := s.slots.set i ⟨c, d⟩ }

/-- `rd_oob` (42_control.md R137): the index is at or above `N`. -/
def rdOob (cfg : Cfg) (rdIdx : U8) : Bool := decide (cfg.n ≤ rdIdx.toNat)

/-- The read port (42_control.md R136, R137): the slot, or zeros out of range. -/
def readPort (cfg : Cfg) (s : Regs) (rdIdx : U8) : Slot :=
  if rdOob cfg rdIdx then Slot.zero else slotRead s rdIdx.toNat

/-- Every field to its reset value (42_control.md R130). -/
def resetRegs (cfg : Cfg) : Regs := Regs.reset cfg.n

/-- The width of an edge (40_decoder.md R82). `0xFFFF` of the rule is the largest timestamp, `2^TS_BITS - 1`. When the counter
wraps this is one less than the true elapsed count (90_conflicts.md C1). -/
def width (cfg : Cfg) (prev cur : Nat) : Nat :=
  if cur ≤ prev then (2 ^ cfg.tsBits - 1 - prev) + cur else cur - prev

/-- The three classes of a width (40_decoder.md R84). -/
inductive WidthClass where
  | sync | data | noise
  deriving DecidableEq, Repr

/-- `classify` (40_decoder.md R84). -/
def classify (cfg : Cfg) (w : Nat) : WidthClass :=
  if cfg.syncGap < w then .sync
  else if cfg.pulseMin ≤ w ∧ w ≤ cfg.pulseMax then .data
  else .noise

/-- The half width `w >> 1` (40_decoder.md R88). -/
def halfWidth (w : Nat) : Nat := w / 2

/-- `quant_diff` (40_decoder.md R89): new minus old, rounded toward zero to a multiple of `DIFF_Q`. -/
def quantDiff (cfg : Cfg) (h old : Int) : Int := truncDiv (h - old) cfg.diffQ * cfg.diffQ

/-- A value lies in the range `s16` (00_scope.md R11). -/
abbrev fitsS16 (v : Int) : Prop := -32768 ≤ v ∧ v ≤ 32767

/-- What a stored pulse writes to `dif`: the quantised derivative (40_decoder.md R89), and the free value where it does not
fit the field (log 4). -/
def difField (cfg : Cfg) (h old : Int) : S16 :=
  if fitsS16 (quantDiff cfg h old) then BitVec.ofInt 16 (quantDiff cfg h old) else Config.unstatedDif h old

/-- What EDGE hands to the rest of its cycle (40_decoder.md R80). -/
structure EdgeResult where
  /-- `S'` as far as EDGE writes it: `prev_ts`, `idx` and one slot. -/
  regs : Regs
  /-- The request to raise the quality counter (R87). -/
  qinc : Bool
  /-- The request to set the frame-ready mark (R90). -/
  frSet : Bool
  evClass : EvClass
  evWidth : BitVec 16
  deriving DecidableEq, Repr

/-- A cycle without EDGE (40_decoder.md R92; 42_control.md R140). -/
def EdgeResult.absent (s : Regs) : EdgeResult := ⟨s, false, false, .none, 0⟩

/-- EDGE(ts) (40_decoder.md R80, R81, R85 to R91). Every read is of the state at the start of the cycle. -/
def edgeOp (cfg : Cfg) (s : Regs) (ts : Ts) : EdgeResult :=
  let w := width cfg s.prevTs.toNat ts.toNat
  let s1 := { s with prevTs := ts }
  let evWidth := BitVec.ofNat 16 w
  match classify cfg w with
  | .sync => ⟨{ s1 with idx := 0 }, false, false, .sync, evWidth⟩
  | .noise => ⟨s1, false, false, .noise, evWidth⟩
  | .data =>
    let i := s.idx.toNat
    if i < cfg.n then
      let h := halfWidth w
      let dif := difField cfg h (slotRead s i).cap.toInt
      ⟨{ slotWrite s1 i (BitVec.ofNat 16 h) dif with idx := BitVec.ofNat 8 (i + 1) }, true,
        decide (cfg.frameReadyIdx ≤ i + 1), .stored, evWidth⟩
    else ⟨s1, true, false, .overrun, evWidth⟩

/-- The outputs of one cycle (30_encoding.md R61; 42_control.md R135 to R137, R139): all but the last two from the state at
the start of the cycle and the data ports. -/
def outputs (cfg : Cfg) (s : Regs) (p : Ports) (evClass : EvClass) (evWidth : BitVec 16) : Output where
  rdCap := (readPort cfg s p.rdIdx).cap
  rdDif := (readPort cfg s p.rdIdx).dif
  rdOob := rdOob cfg p.rdIdx
  status := statusWord cfg s
  qual := s.qual
  failsafe := failsafe s
  sigOk := sigOk cfg s
  updateEn := updateEn s
  frameReady := s.frameReady
  ctlOut := gate s p.ctlIn
  evClass := evClass
  evWidth := evWidth

/-- The end of a cycle (00_scope.md R12): its outputs, taken from the state at its start, are observed, and its writes take
effect together. -/
def State.commit (s : State) (evClass : EvClass) (evWidth : BitVec 16) (r : Regs) : State :=
  { s with regs := r, observed := outputs s.regs.cfg s.regs s.ports evClass evWidth :: s.observed }

end Sys2Proof.Machine
end

