-- ==== Sys2Proof/Machine/Cycle.lean ====
section
/-! DEFINITION. The composition of one cycle as 42_control.md R140 writes it, on the input record of 30_encoding.md R60, and
its runs over an input sequence (00_scope.md R13). `exec` and `step` do not use it: that they agree with it is a claim. -/

namespace Sys2Proof.Machine

/-- `S, I -> S', O` of one cycle (42_control.md R140). -/
def cycle (cfg : Cfg) (s : Regs) (i : Input) : Regs × Output :=
  let p : Ports := ⟨i.rdIdx, i.ctlIn⟩
  if i.rst then (resetRegs cfg, outputs cfg s p .none 0)
  else
    let e := if i.edgeValid then edgeOp cfg s i.edgeTs else EdgeResult.absent s
    ({ e.regs with
        qual := BitVec.ofNat 8 (qualNext cfg s.qual.toNat e.qinc i.tick)
        frameReady := frameReadyNext e.frSet s.frameReady i.frameAck },
      outputs cfg s p e.evClass e.evWidth)

/-- The state after a sequence of input records (00_scope.md R13). -/
def runRegs (s : Regs) : List Input → Regs
  | [] => s
  | i :: is => runRegs (cycle s.cfg s i).1 is

/-- The observation of a run: the outputs of its cycles, oldest first (00_scope.md R13). -/
def runOutputs (s : Regs) : List Input → List Output
  | [] => []
  | i :: is => (cycle s.cfg s i).2 :: runOutputs (cycle s.cfg s i).1 is

end Sys2Proof.Machine
end

