-- ==== Sys2Proof/Machine/Control.lean ====
section
/-! DEFINITION. The meanings of RESET, ACK and IDLE (42_control.md R130 to R133). -/

namespace Sys2Proof.Machine

/-- RESET (42_control.md R130). The other strobes of its cycle and `TS` are ignored (R131). -/
def execReset (_edge _tick _ack : Bool) (_ts : Ts) (s : State) : Host.Outcome State Fault Refusal :=
  .next (s.commit .none 0 (resetRegs s.regs.cfg))

/-- ACK in a cycle without EDGE and TICK (42_control.md R133). `TS` is ignored (30_encoding.md R64). -/
def execAck (_ts : Ts) (s : State) : Host.Outcome State Fault Refusal :=
  .next (s.commit .none 0 { s.regs with frameReady := frameReadyNext false s.regs.frameReady true })

/-- IDLE (42_control.md R132): `S' = S`. `TS` is ignored (30_encoding.md R64). -/
def execIdle (_ts : Ts) (s : State) : Host.Outcome State Fault Refusal :=
  .next (s.commit .none 0 s.regs)

end Sys2Proof.Machine
end

