-- ==== Sys2Proof/Machine/Edge.lean ====
section
/-! DEFINITION. The meaning of EDGE (40_decoder.md R80). -/

namespace Sys2Proof.Machine

/-- EDGE (40_decoder.md R80), with what the cycle's quality counter (41_quality.md R110) and frame-ready mark
(42_control.md R133) make of its requests and of the strobes TICK and ACK. -/
def execEdge (tick ack : Bool) (ts : Ts) (s : State) : Host.Outcome State Fault Refusal :=
  let e := edgeOp s.regs.cfg s.regs ts
  .next (s.commit e.evClass e.evWidth
    { e.regs with
      qual := BitVec.ofNat 8 (qualNext s.regs.cfg s.regs.qual.toNat e.qinc tick)
      frameReady := frameReadyNext e.frSet s.regs.frameReady ack })

end Sys2Proof.Machine
end

