-- ==== Sys2Proof/Machine/Quality.lean ====
section
/-! DEFINITION. The meaning of TICK (41_quality.md R111). -/

namespace Sys2Proof.Machine

/-- TICK in a cycle without EDGE (41_quality.md R111): the counter decays; the frame-ready mark follows the strobe ACK
(42_control.md R133). `TS` is ignored (30_encoding.md R64). -/
def execTick (ack : Bool) (_ts : Ts) (s : State) : Host.Outcome State Fault Refusal :=
  .next (s.commit .none 0
    { s.regs with
      qual := BitVec.ofNat 8 (qualNext s.regs.cfg s.regs.qual.toNat false true)
      frameReady := frameReadyNext false s.regs.frameReady ack })

end Sys2Proof.Machine
end

