-- ==== Sys2Proof/Machine/Dispatch.lean ====
section
/-! DEFINITION. One arm per operation of spec/opcode_table.json. -/

namespace Sys2Proof.Machine

def exec (i : Instr) (s : State) : Host.Outcome State Fault Refusal :=
  match i with
  | .reset edge tick ack ts => Sys2Proof.Machine.execReset edge tick ack ts s
  | .edge tick ack ts => Sys2Proof.Machine.execEdge tick ack ts s
  | .tick ack ts => Sys2Proof.Machine.execTick ack ts s
  | .ack ts => Sys2Proof.Machine.execAck ts s
  | .idle ts => Sys2Proof.Machine.execIdle ts s

end Sys2Proof.Machine
end

