-- ==== Sys2Proof/Machine/Step.lean ====
section
/-! DEFINITION. One step of the machine: the next cycle's control word is decoded and its operation runs. -/

namespace Sys2Proof.Machine

/-- One clock cycle (00_scope.md R13). A control word with a reserved bit set is refused (30_encoding.md R66). -/
def step (s : State) : Host.Outcome State Fault Refusal :=
  match decode s.nextSample.cw with
  | .ok i => exec i s.sampled
  | .error (.reservedBits field) => .refused (.reservedBits field)

/-- The agents present the word of spec/opcode_table.json in the very next cycle, with the data ports of a line without `READ`
and `CTL` (30_encoding.md R69). -/
def State.withFetchWord (s : State) (nbits w : Nat) : State := s.present ⟨tableCW nbits w, Ports.quiet⟩

end Sys2Proof.Machine
end

