-- ==== Sys2Proof/Machine/Program.lean ====
section
/-! DEFINITION. The notation of test programs (30_encoding.md R69, R70): a line is one cycle's port sample. The hardware
knows nothing of it. -/

namespace Sys2Proof.Machine

/-- The items of one program line (30_encoding.md R69): strobes, and what the data ports are driven with. A line with no
strobe is IDLE. -/
structure Line where
  reset : Bool := false
  edge : Option Ts := none
  tick : Bool := false
  ack : Bool := false
  read : Option U8 := none
  ctl : Option Ctl := none
  deriving DecidableEq, Repr

/-- `RESET` may not share a line with `EDGE`, `TICK` or `ACK` (30_encoding.md R69; 93_implementation_defined.md U13). -/
def Line.legal (l : Line) : Bool := !(l.reset && (l.edge.isSome || l.tick || l.ack))

/-- The encoding of a line (30_encoding.md R69). -/
def Line.cw (l : Line) : CW := packCW l.reset l.edge.isSome l.tick l.ack (l.edge.getD 0)

/-- What a line drives: its control word, and 0 on a data port it does not name (30_encoding.md R69). -/
def Line.sample (l : Line) : PortSample := ⟨l.cw, ⟨l.read.getD 0, l.ctl.getD Ctl.zero⟩⟩

/-- The timestamps that `PULSES t0 : w1, ..., wk` presents: each `(t0 + w1 + ... + wj) mod 65536` (30_encoding.md R70). -/
def pulseTimes (t0 : Nat) : List Nat → List Nat
  | [] => []
  | w :: ws => (t0 + w) % 65536 :: pulseTimes (t0 + w) ws

/-- A statement of a program (30_encoding.md R69, R70): a line, or a pseudo-operation. -/
inductive Stmt where
  | line (l : Line)
  | ticks (n : Nat)
  | idles (n : Nat)
  | pulses (t0 : Nat) (ws : List Nat)
  deriving DecidableEq, Repr

/-- The lines a statement stands for (30_encoding.md R70). -/
def Stmt.lines : Stmt → List Line
  | .line l => [l]
  | .ticks n => List.replicate n { tick := true }
  | .idles n => List.replicate n {}
  | .pulses t0 ws => (pulseTimes t0 ws).map fun t => { edge := some (BitVec.ofNat 16 t) }

/-! ### The text of a statement

Concrete text: items separated by `|`, a comment after `;`, the `t` of `EDGE` decimal or `0x` hexadecimal (30_encoding.md R69).
What R69 and R70 leave open about the text (blanks, repeats, the form of the other numbers) is DESIGN CHOICE, log 9. -/

/-- A word, a comma, a colon or a bar of the text. -/
abbrev Token := List Char

/-- A word read so far, last character first, as a token. -/
def closeToken (word : List Char) (rest : List Token) : List Token :=
  if word.isEmpty then rest else word.reverse :: rest

/-- The tokens of a line: words, and `,` `:` `|` on their own; nothing after `;`. -/
def tokens : List Char → List Char → List Token
  | [], word => closeToken word []
  | c :: cs, word =>
    if c = ';' then closeToken word []
    else if c = ' ' ∨ c = '\t' then closeToken word (tokens cs [])
    else if c = ',' ∨ c = ':' ∨ c = '|' then closeToken word ([c] :: tokens cs [])
    else tokens cs (c :: word)

/-- A digit of a base up to 16. -/
def digit (base : Nat) (c : Char) : Option Nat :=
  let n := c.toNat
  let v := if 48 ≤ n ∧ n ≤ 57 then n - 48 else if 65 ≤ n ∧ n ≤ 70 then n - 55 else if 97 ≤ n ∧ n ≤ 102 then n - 87 else 16
  if v < base then some v else none

/-- The digits of a number, most significant first. -/
def digits (base : Nat) (acc : Nat) : List Char → Option Nat
  | [] => some acc
  | c :: cs => (digit base c).bind fun d => digits base (acc * base + d) cs

/-- A number, decimal or `0x` hexadecimal. 30_encoding.md R69 gives these two forms for the `t` of `EDGE` only; that the numbers of
`READ`, `CTL`, `TICKS`, `IDLES` and `PULSES` take both too, that hexadecimal digits are of either case and that leading zeros may
stand is DESIGN CHOICE, log 9. -/
def natToken : Token → Option Nat
  | [] => none
  | '0' :: 'x' :: c :: cs => digits 16 0 (c :: cs)
  | t => digits 10 0 t

/-- A number with an optional minus sign, before `0x` too (30_encoding.md R69 states no form for the values of `CTL`: DESIGN CHOICE,
log 9). -/
def intToken : Token → Option Int
  | '-' :: t => (natToken t).map fun n => -(n : Int)
  | t => (natToken t).map Int.ofNat

/-- A number of the range `s16`. -/
def s16Token (t : Token) : Option S16 :=
  (intToken t).bind fun v => if -32768 ≤ v ∧ v ≤ 32767 then some (BitVec.ofInt 16 v) else none

/-- An item of a line (30_encoding.md R69). -/
inductive Item where
  | reset
  | edge (t : Ts)
  | tick
  | ack
  | idle
  | read (i : U8)
  | ctl (c : Ctl)
  deriving DecidableEq, Repr

/-- The item that the tokens between two bars spell. -/
def itemOf : List Token → Option Item
  | [w] =>
    if w = ['R', 'E', 'S', 'E', 'T'] then some .reset
    else if w = ['T', 'I', 'C', 'K'] then some .tick
    else if w = ['A', 'C', 'K'] then some .ack
    else if w = ['I', 'D', 'L', 'E'] then some .idle
    else none
  | [w, x] =>
    if w = ['E', 'D', 'G', 'E'] then
      (natToken x).bind fun t => if t < 65536 then some (.edge (BitVec.ofNat 16 t)) else none
    else if w = ['R', 'E', 'A', 'D'] then
      (natToken x).bind fun i => if i < 256 then some (.read (BitVec.ofNat 8 i)) else none
    else none
  | [w, a, c1, b, c2, c, c3, d] =>
    if w = ['C', 'T', 'L'] ∧ c1 = [','] ∧ c2 = [','] ∧ c3 = [','] then
      (s16Token a).bind fun a => (s16Token b).bind fun b => (s16Token c).bind fun c => (s16Token d).bind fun d =>
        some (.ctl ⟨a, b, c, d⟩)
    else none
  | _ => none

/-- A line with one more item. 30_encoding.md R69 is silent on repeated items, DESIGN CHOICE, log 9: any item but `IDLE` twice is
none, and `IDLE` adds nothing, so it may stand more than once (`lineOf` refuses it beside a strobe). -/
def Line.withItem (l : Line) : Item → Option Line
  | .reset => if l.reset then none else some { l with reset := true }
  | .edge t => if l.edge.isSome then none else some { l with edge := some t }
  | .tick => if l.tick then none else some { l with tick := true }
  | .ack => if l.ack then none else some { l with ack := true }
  | .idle => some l
  | .read i => if l.read.isSome then none else some { l with read := some i }
  | .ctl c => if l.ctl.isSome then none else some { l with ctl := some c }

/-- The line that a list of items makes: `IDLE` stands only on a line with no strobe (DEDUCED from 30_encoding.md R69, log 9), and
RESET with no other strobe. -/
def lineOf (items : List Item) : Option Line :=
  (items.foldl (fun l i => l.bind fun l => l.withItem i) (some {})).bind fun l =>
    if (items.contains .idle && (l.reset || l.edge.isSome || l.tick || l.ack)) || !l.legal then none else some l

/-- The tokens between the bars of a line. -/
def splitBars : List Token → List Token → List (List Token)
  | [], part => [part.reverse]
  | t :: ts, part => if t = ['|'] then part.reverse :: splitBars ts [] else splitBars ts (t :: part)

/-- The widths `w1, ..., wk` of PULSES, each from 1 to 65535 (30_encoding.md R70), with a comma between them. P4 of
95_test_vectors.md writes eleven equal widths as `2000 ×11`, a form that R70 does not define: it is none (DESIGN CHOICE, log 9), and
the same lines are read from the widths written out. -/
def widthsOf : List Token → Option (List Nat)
  | [] => none
  | [t] => (natToken t).bind fun w => if 1 ≤ w ∧ w ≤ 65535 then some [w] else none
  | t :: comma :: ts =>
    if comma = [','] then
      (natToken t).bind fun w => if 1 ≤ w ∧ w ≤ 65535 then (widthsOf ts).map (w :: ·) else none
    else none

/-- The pseudo-operation that the tokens of a line spell (30_encoding.md R70). R70 gives no range for `t0` and `n`: `t0` up to 65535
and any `n`, 0 included, is DESIGN CHOICE, log 9. -/
def pseudoOf : List Token → Option Stmt
  | [w, n] =>
    if w = ['T', 'I', 'C', 'K', 'S'] then (natToken n).map .ticks
    else if w = ['I', 'D', 'L', 'E', 'S'] then (natToken n).map .idles
    else none
  | w :: t :: colon :: ws =>
    if w = ['P', 'U', 'L', 'S', 'E', 'S'] ∧ colon = [':'] then
      (natToken t).bind fun t0 => if t0 < 65536 then (widthsOf ws).map (.pulses t0) else none
    else none
  | _ => none

/-- The statement that a line of text spells (30_encoding.md R69, R70). -/
def stmtOf (text : List Char) : Option Stmt :=
  let ts := tokens text []
  match pseudoOf ts with
  | some s => some s
  | none => (((splitBars ts []).mapM itemOf).bind lineOf).map .line

end Sys2Proof.Machine
end

