-- ==== Sys2Proof/Safety.lean ====
section
/-! DEFINITION. The terms claims use: the invariant of 10_state.md R26, the rules' own width and classes written with their
numerals, and predicates over runs. `step` uses none of them. -/

namespace Sys2Proof.Machine

/-- The slot array has a legal size: `1 <= N <= 255` (00_scope.md R8). True of every hardware, reset or not. -/
abbrev Regs.sized (s : Regs) : Prop := Config.legalCount s.slots.length

/-- A slot's `cap` is 0 or a half width of a data pulse (10_state.md R26). -/
abbrev capInRange (c : S16) : Prop := c = 0 ∨ (750 ≤ c.toInt ∧ c.toInt ≤ 2250)

/-- A slot's `dif` is a multiple of 3 from -1500 to 2250 (10_state.md R26). -/
abbrev difInRange (d : S16) : Prop := d.toInt % 3 = 0 ∧ -1500 ≤ d.toInt ∧ d.toInt ≤ 2250

/-- The first four clauses of 10_state.md R26, which speak of one state. -/
abbrev Regs.Inv (s : Regs) : Prop :=
  s.idx.toNat ≤ s.slots.length ∧ s.qual.toNat ≤ 200 ∧ ∀ x ∈ s.slots, capInRange x.cap ∧ difInRange x.dif

/-- The invariant that every step keeps: a legal slot count and 10_state.md R26. -/
abbrev State.Inv (s : State) : Prop := s.regs.sized ∧ s.regs.Inv

/-- The width of an edge as 40_decoder.md R82 writes it, with its numerals. -/
def ruleWidth (s : Regs) (ts : Ts) : Nat :=
  if ts.toNat ≤ s.prevTs.toNat then (0xFFFF - s.prevTs.toNat) + ts.toNat else ts.toNat - s.prevTs.toNat

/-- SYNC (40_decoder.md R84). -/
abbrev syncWidth (w : Nat) : Prop := 8000 < w

/-- DATA (40_decoder.md R84). -/
abbrev dataWidth (w : Nat) : Prop := 1500 ≤ w ∧ w ≤ 4500

/-- NOISE (40_decoder.md R84). -/
abbrev noiseWidth (w : Nat) : Prop := w < 1500 ∨ (4500 < w ∧ w ≤ 8000)

/-- The cycle performs EDGE and its width is a sync gap. -/
def Input.syncEdge (s : Regs) (i : Input) : Bool := !i.rst && i.edgeValid && decide (syncWidth (ruleWidth s i.edgeTs))

/-- The cycle performs EDGE and its width is a data pulse. -/
def Input.dataEdge (s : Regs) (i : Input) : Bool := !i.rst && i.edgeValid && decide (dataWidth (ruleWidth s i.edgeTs))

/-- A property holds of every cycle of a run: of its start state and its input. -/
def along (P : Regs → Input → Bool) (s : Regs) : List Input → Bool
  | [] => true
  | i :: is => P s i && along P (cycle s.cfg s i).1 is

/-- How many cycles of a run have a data pulse. -/
def dataEdges (s : Regs) : List Input → Nat
  | [] => 0
  | i :: is => (if Input.dataEdge s i then 1 else 0) + dataEdges (cycle s.cfg s i).1 is

/-- The cycle from `s` to `u` showed this class and width (30_encoding.md R61, R67), and of the model's own fields (log 2) only the
observation changed, by its one record. -/
def State.shows (s u : State) (evClass : EvClass) (w : Nat) : Prop :=
  u.ports = s.ports ∧ u.inputs = s.inputs ∧
    ∃ o, u.observed = o :: s.observed ∧ o.evClass = evClass ∧ o.evWidth.toNat = w

/-- The widths that PPMDEC decodes from `PULSES t : w1, ..., wk`, the counter standing at `t`: each is the step, less one where it
passes 65535 (30_encoding.md R70). -/
def decodedWidths (t : Nat) : List Nat → List Nat
  | [] => []
  | w :: ws => (if 65535 < t + w then w - 1 else w) :: decodedWidths ((t + w) % 65536) ws

end Sys2Proof.Machine

namespace Sys2Proof

open Sys2Proof.Machine

/-- The term performs EDGE and its width is a data pulse (40_decoder.md R87: `qinc = 1`). -/
def Instr.dataEdge (s : Regs) : Instr → Bool
  | .edge _ _ ts => decide (dataWidth (ruleWidth s ts))
  | .reset _ _ _ _ | .tick _ _ | .ack _ | .idle _ => false

end Sys2Proof
end

