-- ==== Sys2Proof/Certificates/Slice0/Obligations.lean ====
section
/-! DEFINITION. The statements for the provers. Each docstring names the rules of spec/ it formalises. Widths, thresholds and
counter updates are written with the rules' own numerals, not with the model's functions. -/

open Sys2Proof Sys2Proof.Machine

/-! ### RESET -/

/-- R30, R131: RESET gives every field its reset value and keeps the slot count, whatever the other strobes and `TS` of its
word hold; its own cycle shows class NONE and width 0; after it failsafe stands over every run until the first data pulse.
Completion of RESET. -/
def Obligations.ResetGivesEveryFieldItsResetValue : Prop :=
  ∀ (e t a : Bool) (ts : Ts) (s : State), ∃ u, exec (.reset e t a ts) s = .next u ∧
    u.regs.prevTs = 0x0000 ∧ u.regs.idx = 0 ∧ u.regs.slots = List.replicate s.regs.slots.length ⟨0, 0⟩ ∧
    u.regs.frameReady = false ∧ u.regs.qual = 0 ∧ s.shows u .none 0 ∧
    ∀ is : List Input, dataEdges u.regs is = 0 → failsafe (runRegs u.regs is) = true

/-- R130, R28: after RESET `STATUS` reads 0x00020000, and in its own cycle the outputs still show the state before it. -/
def Obligations.ResetStatusIsVisibleFromTheNextCycle : Prop :=
  ∀ (e t a : Bool) (ts : Ts) (s : State), ∃ u o, exec (.reset e t a ts) s = .next u ∧
    u.observed = o :: s.observed ∧ o.status = statusWord s.regs.cfg s.regs ∧ o.qual = s.regs.qual ∧
    ∀ i : Instr, ∃ v o', exec i u = .next v ∧ v.observed = o' :: u.observed ∧ o'.status = 0x00020000

/-- R34, R171: from power-up, where every field is a free draw, a cycle with RESET reaches the reset state of the hardware.
That its ports and observation hold what they do is the model's (logs 2 and 3). -/
def Obligations.ResetCyclePutsPowerUpIntoTheResetState : Prop :=
  ∃ u, step (State.powerUp.withFetchWord 32 0x80000000) = .next u ∧ u.regs = State.reset.regs ∧
    u.ports = State.reset.ports ∧ u.inputs = State.reset.inputs

/-- R63, R130: a control word with `RST` set acts as every other such word, whatever its strobes and `TS` hold. -/
def Obligations.ResetWordIgnoresItsOtherBits : Prop :=
  ∀ (s : State) (p : Ports) (cw cw' : CW), cw.getLsbD 31 = true → cw'.getLsbD 31 = true →
    cw.extractLsb' 16 12 = 0 → cw'.extractLsb' 16 12 = 0 → step (s.present ⟨cw, p⟩) = step (s.present ⟨cw', p⟩)

/-! ### EDGE -/

/-- R85: a sync gap returns the index to 0, keeps every slot and the frame-ready mark (but for the cycle's own ACK), does not
raise the counter, and takes the timestamp. Completion of EDGE where the width is a sync gap. -/
def Obligations.SyncEdgeRestartsTheFrame : Prop :=
  ∀ (t a : Bool) (ts : Ts) (s : State), syncWidth (ruleWidth s.regs ts) →
    ∃ u, exec (.edge t a ts) s = .next u ∧
      u.regs = { s.regs with prevTs := ts, idx := 0, frameReady := s.regs.frameReady && !a, qual := u.regs.qual } ∧
      u.regs.qual.toNat = s.regs.qual.toNat - (if t then 1 else 0) ∧ s.shows u .sync (ruleWidth s.regs ts)

/-- R86: noise changes no field but the timestamp (and what the cycle's own TICK and ACK change). Completion of EDGE where
the width is noise. -/
def Obligations.NoiseEdgeIsDropped : Prop :=
  ∀ (t a : Bool) (ts : Ts) (s : State), noiseWidth (ruleWidth s.regs ts) →
    ∃ u, exec (.edge t a ts) s = .next u ∧
      u.regs = { s.regs with prevTs := ts, frameReady := s.regs.frameReady && !a, qual := u.regs.qual } ∧
      u.regs.qual.toNat = s.regs.qual.toNat - (if t then 1 else 0) ∧ s.shows u .noise (ruleWidth s.regs ts)

/-- R88, R89 (and R90's and R87's part): a data pulse with a slot left writes half its width and the derivative, rounded toward zero to a multiple
of 3, into slot `idx` and into no other, advances the index by one, sets the mark from the fourth slot on, and raises the
counter. Where the derivative does not fit 16 bits the spec states no value (log 4): the statement leaves it open and the rest
holds. Completion of EDGE where the pulse is stored. -/
def Obligations.DataEdgeIsStored : Prop :=
  ∀ (t a : Bool) (ts : Ts) (s : State), s.regs.sized → dataWidth (ruleWidth s.regs ts) →
    s.regs.idx.toNat < s.regs.slots.length →
    ∃ u d, exec (.edge t a ts) s = .next u ∧
      u.regs = { prevTs := ts, idx := u.regs.idx, qual := u.regs.qual
                 slots := s.regs.slots.set s.regs.idx.toNat ⟨BitVec.ofNat 16 (ruleWidth s.regs ts / 2), d⟩
                 frameReady := decide (4 ≤ s.regs.idx.toNat + 1) || (s.regs.frameReady && !a) } ∧
      u.regs.idx.toNat = s.regs.idx.toNat + 1 ∧
      (∀ delta dq : Int, delta = (ruleWidth s.regs ts / 2 : Nat) - (slotRead s.regs s.regs.idx.toNat).cap.toInt →
        dq = delta.sign * (delta.natAbs / 3 * 3 : Nat) → -32768 ≤ dq → dq ≤ 32767 → d.toInt = dq) ∧
      u.regs.qual.toNat = min (s.regs.qual.toNat + 10) 200 - (if t then 1 else 0) ∧
      s.shows u .stored (ruleWidth s.regs ts)

/-- R91: a data pulse with no slot left writes no slot, keeps the index and does not set the mark, and raises the counter.
Completion of EDGE where the pulse overruns. -/
def Obligations.DataEdgeBeyondTheLastSlotOverruns : Prop :=
  ∀ (t a : Bool) (ts : Ts) (s : State), dataWidth (ruleWidth s.regs ts) → s.regs.slots.length ≤ s.regs.idx.toNat →
    ∃ u, exec (.edge t a ts) s = .next u ∧
      u.regs = { s.regs with prevTs := ts, frameReady := s.regs.frameReady && !a, qual := u.regs.qual } ∧
      u.regs.qual.toNat = min (s.regs.qual.toNat + 10) 200 - (if t then 1 else 0) ∧
      s.shows u .overrun (ruleWidth s.regs ts)

/-- R83: the consequences of the width formula. -/
def Obligations.WidthFormulaHasTheConsequencesOfRule83 : Prop :=
  ∀ n prev cur : Nat, prev ≤ 65535 → cur ≤ 65535 →
    let w := width (Config.cfg n) prev cur
    w ≤ 65535 ∧ (w = 0 ↔ prev = 65535 ∧ cur = 0) ∧ (w = 0 → classify (Config.cfg n) w = .noise) ∧
    (prev < cur → w = cur - prev) ∧ (cur < prev → w = 65535 - prev + cur ∧ w + 1 = 65536 - prev + cur) ∧
    (cur = prev → w = 65535 ∧ classify (Config.cfg n) w = .sync) ∧
    ∀ elapsed elapsed' : Nat, elapsed % 65536 = elapsed' % 65536 →
      width (Config.cfg n) prev ((prev + elapsed) % 65536) = width (Config.cfg n) prev ((prev + elapsed') % 65536)

/-- R94: an edge that repeats the timestamp before it decodes to width 65535 and returns the index to 0. -/
def Obligations.RepeatedTimestampRestartsTheFrame : Prop :=
  ∀ (t a : Bool) (s : State), ∃ u, exec (.edge t a s.regs.prevTs) s = .next u ∧ u.regs.idx = 0 ∧ s.shows u .sync 65535

/-- R93: the first EDGE after reset is measured against timestamp 0 and classified by that width alone, and `EDGE 2000` is stored
in slot 0, for every slot count. -/
def Obligations.FirstEdgeAfterResetIsMeasuredAgainstZero : Prop :=
  ∀ (n : Nat) (t a : Bool) (ts : Ts), Config.legalCount n → ∃ u o, exec (.edge t a ts) (State.resetFor n) = .next u ∧
    u.observed = [o] ∧ o.evWidth.toNat = (if ts = 0 then 65535 else ts.toNat) ∧
    (o.evClass = .sync ↔ syncWidth o.evWidth.toNat) ∧ (o.evClass = .stored ↔ dataWidth o.evWidth.toNat) ∧
    (o.evClass = .noise ↔ noiseWidth o.evWidth.toNat) ∧
    (ts = 2000 → o.evWidth = 2000 ∧ o.evClass = .stored ∧ slotRead u.regs 0 = ⟨1000, 999⟩ ∧ u.regs.idx = 1)

/-- R92, R67: in every cycle `ev_class` and `ev_width` describe its edge, and are NONE and 0 where no EDGE is performed; the
reserved codes are never driven. -/
def Obligations.EventOutputsDescribeTheEdge : Prop :=
  (∀ (t a : Bool) (ts : Ts) (s : State), ∃ u o, exec (.edge t a ts) s = .next u ∧ u.observed = o :: s.observed ∧
    o.evWidth.toNat = ruleWidth s.regs ts ∧ o.evClass.code =
      (if syncWidth (ruleWidth s.regs ts) then 0b010
        else if dataWidth (ruleWidth s.regs ts) then
          if s.regs.idx.toNat < s.regs.slots.length then 0b011 else 0b100
        else 0b001)) ∧
  (∀ (i : Instr) (s : State), i.performs .edge = false → ∃ u o, exec i s = .next u ∧ u.observed = o :: s.observed ∧
    o.evWidth = 0 ∧ o.evClass.code = 0b000)

/-! ### TICK, ACK and IDLE -/

/-- R111, R110: TICK without EDGE takes one from the counter if it is not 0 and changes nothing else but the mark that its own
cycle's ACK consumes. Completion of TICK. -/
def Obligations.TickDecaysTheCounter : Prop :=
  ∀ (a : Bool) (ts : Ts) (s : State), ∃ u, exec (.tick a ts) s = .next u ∧
    u.regs = { s.regs with frameReady := s.regs.frameReady && !a, qual := u.regs.qual } ∧
    u.regs.qual.toNat = (if 0 < s.regs.qual.toNat then s.regs.qual.toNat - 1 else 0) ∧ s.shows u .none 0

/-- R133: ACK without EDGE and TICK clears the mark and changes nothing else. Completion of ACK. -/
def Obligations.AckConsumesTheMark : Prop :=
  ∀ (ts : Ts) (s : State), ∃ u, exec (.ack ts) s = .next u ∧
    u.regs = { s.regs with frameReady := false } ∧ s.shows u .none 0

/-- R132: IDLE keeps the whole state. Completion of IDLE. -/
def Obligations.IdleKeepsTheState : Prop :=
  ∀ (ts : Ts) (s : State), ∃ u, exec (.idle ts) s = .next u ∧ u.regs = s.regs ∧ s.shows u .none 0

/-! ### The quality counter -/

/-- R110: in every cycle without RESET the counter's next value is the rule's: the increment with its clamp, then the
decrement; both stay in 0 to 200 when the counter is. -/
def Obligations.QualityCounterFollowsRule110 : Prop :=
  ∀ (i : Instr) (s : State), i.performs .reset = false → ∃ u, exec i s = .next u ∧
    ∀ q1 q2 : Nat, q1 = (if i.dataEdge s.regs then min (s.regs.qual.toNat + 10) 200 else s.regs.qual.toNat) →
      q2 = (if i.performs .tick = true ∧ 0 < q1 then q1 - 1 else q1) →
      u.regs.qual.toNat = q2 ∧ (s.regs.qual.toNat ≤ 200 → q1 ≤ 200 ∧ q2 ≤ 200)

/-- R112: the increment's corner cases, for a data edge with a slot left or none, and for cycles without one. -/
def Obligations.IncrementCornerCases : Prop :=
  (∀ (a : Bool) (ts : Ts) (s : State), dataWidth (ruleWidth s.regs ts) → ∃ u, exec (.edge false a ts) s = .next u ∧
    (s.regs.qual.toNat ≤ 190 → u.regs.qual.toNat = s.regs.qual.toNat + 10) ∧
    (191 ≤ s.regs.qual.toNat → s.regs.qual.toNat ≤ 200 → u.regs.qual.toNat = 200)) ∧
  (∀ (i : Instr) (s : State), i.dataEdge s.regs = false → i.performs .reset = false →
    ∃ u, exec i s = .next u ∧ u.regs.qual.toNat ≤ s.regs.qual.toNat ∧
      (i.performs .tick = false → u.regs.qual = s.regs.qual))

/-- R113: over a burst of data pulses without ticks the counter climbs by 10 a pulse to 200 and stops there; over ticks without
data pulses it falls by 1 a tick to exactly 0 and stays there. -/
def Obligations.CounterIsMonotoneOverBurstsAndTicks : Prop :=
  (∀ (s : Regs) (is : List Input), s.qual.toNat ≤ 200 → along (fun s i => i.dataEdge s && !i.tick) s is = true →
    (runRegs s is).qual.toNat = min (s.qual.toNat + 10 * is.length) 200) ∧
  (∀ (s : Regs) (is : List Input), along (fun s i => !i.rst && i.tick && !i.dataEdge s) s is = true →
    (runRegs s is).qual.toNat = s.qual.toNat - is.length)

/-- R182: without data pulses failsafe returns with the `q`-th tick and not before; after one data pulse from 0, with the 10th;
from 0, `sig_ok` takes at least 11 data pulses. -/
def Obligations.FailsafeLatencyAndSignalPresence : Prop :=
  (∀ (s : Regs) (is : List Input), along (fun s i => !i.rst && i.tick && !i.dataEdge s) s is = true →
    (failsafe (runRegs s is) = true ↔ s.qual.toNat ≤ is.length)) ∧
  (∀ (s : Regs) (i : Input) (is : List Input), s.qual = 0 → i.dataEdge s = true → i.tick = false →
    along (fun s i => !i.rst && i.tick && !i.dataEdge s) (cycle s.cfg s i).1 is = true →
    (failsafe (runRegs s (i :: is)) = true ↔ 10 ≤ is.length)) ∧
  (∀ (s : Regs) (is : List Input), s.qual = 0 → sigOk s.cfg (runRegs s is) = true → 11 ≤ dataEdges s is)

/-! ### Outputs -/

/-- R135, R28: in every cycle `status` is the word of R28 of the state at its start, field by field, and the individual outputs
carry the same bits. -/
def Obligations.StatusWordIsDrivenEveryCycle : Prop :=
  ∀ (i : Instr) (s : State), ∃ u o, exec i s = .next u ∧ u.observed = o :: s.observed ∧
    o.status.extractLsb' 0 8 = s.regs.qual ∧ o.status.extractLsb' 8 8 = s.regs.idx ∧
    o.status.getLsbD 16 = s.regs.frameReady ∧ o.status.getLsbD 17 = decide (s.regs.qual.toNat = 0) ∧
    o.status.getLsbD 18 = decide (100 < s.regs.qual.toNat) ∧
    o.status.getLsbD 19 = (s.regs.frameReady && decide (s.regs.qual.toNat ≠ 0)) ∧
    o.status.extractLsb' 20 12 = 0 ∧
    o.qual = o.status.extractLsb' 0 8 ∧ o.frameReady = o.status.getLsbD 16 ∧ o.failsafe = o.status.getLsbD 17 ∧
    o.sigOk = o.status.getLsbD 18 ∧ o.updateEn = o.status.getLsbD 19

/-- R115, R116, R118 (and R117's equation): in every cycle the gating outputs are functions of the counter at its start, and
the four control outputs are exactly 0 at quality 0 and pass otherwise. -/
def Obligations.GatingOutputsFollowTheCounter : Prop :=
  ∀ (i : Instr) (s : State), ∃ u o, exec i s = .next u ∧ u.observed = o :: s.observed ∧
    (o.failsafe = true ↔ s.regs.qual.toNat = 0) ∧ (o.sigOk = true ↔ 101 ≤ s.regs.qual.toNat) ∧
    (o.updateEn = true ↔ s.regs.frameReady = true ∧ s.regs.qual.toNat ≠ 0) ∧
    (s.regs.qual.toNat = 0 → o.ctlOut = ⟨0, 0, 0, 0⟩) ∧ (s.regs.qual.toNat ≠ 0 → o.ctlOut = s.ports.ctlIn)

/-- R136, R137, R43, R44: in every cycle, also in one that writes the slot, the read port gives the pair of the state at its
start, and zeros with `rd_oob` at or above `N`; what the data ports carry changes nothing of the next state. -/
def Obligations.ReadPortGivesThePairAtTheStartOfTheCycle : Prop :=
  ∀ (i : Instr) (s : State), ∃ u o, exec i s = .next u ∧ u.observed = o :: s.observed ∧
    (∀ x, s.regs.slots[s.ports.rdIdx.toNat]? = some x → o.rdCap = x.cap ∧ o.rdDif = x.dif ∧ o.rdOob = false) ∧
    (s.regs.slots.length ≤ s.ports.rdIdx.toNat → o.rdCap = 0 ∧ o.rdDif = 0 ∧ o.rdOob = true) ∧
    ∀ p : Ports, ∃ v, exec i { s with ports := p } = .next v ∧ v.regs = u.regs ∧ v.inputs = u.inputs

/-- R119: the operation of a cycle changes none of its own Moore outputs; a data edge at quality 0 leaves failsafe on in its own
cycle and off from the next, with or without a TICK. -/
def Obligations.MooreOutputsIgnoreTheOperation : Prop :=
  (∀ (i j : Instr) (s : State), ∃ u v o o', exec i s = .next u ∧ exec j s = .next v ∧
    u.observed = o :: s.observed ∧ v.observed = o' :: s.observed ∧
    o = { o' with evClass := o.evClass, evWidth := o.evWidth }) ∧
  (∀ (t a : Bool) (ts : Ts) (s : State), s.regs.qual = 0 → dataWidth (ruleWidth s.regs ts) →
    ∃ u o, exec (.edge t a ts) s = .next u ∧ u.observed = o :: s.observed ∧ o.failsafe = true ∧
      u.regs.qual.toNat = (if t then 9 else 10) ∧
      ∀ i : Instr, ∃ v o', exec i u = .next v ∧ v.observed = o' :: u.observed ∧ o'.failsafe = false)

/-- R33: the previous timestamp shows in no output but `ev_width` and `ev_class`, and in a cycle without EDGE in none. -/
def Obligations.PreviousTimestampShowsOnlyInTheEventOutputs : Prop :=
  ∀ (i : Instr) (s : State) (p : Ts), ∃ u v o o',
    exec i s = .next u ∧ exec i { s with regs := { s.regs with prevTs := p } } = .next v ∧
    u.observed = o :: s.observed ∧ v.observed = o' :: s.observed ∧
    o = { o' with evClass := o.evClass, evWidth := o.evWidth } ∧ (i.performs .edge = false → o = o')

/-! ### Whole-machine rules -/

/-- R24, R90: after every cycle the mark stands exactly where an EDGE of the cycle stored a pulse and left the index at 4 or
more, or it stood before and neither ACK nor RESET was performed; a sync gap does not clear it. -/
def Obligations.FrameReadyIsSetByStoresAndClearedByAckAndReset : Prop :=
  ∀ (i : Instr) (s : State), s.regs.sized → ∃ u, exec i s = .next u ∧
    (u.regs.frameReady = true ↔
      (i.dataEdge s.regs = true ∧ s.regs.idx.toNat < s.regs.slots.length ∧ 4 ≤ u.regs.idx.toNat) ∨
      (s.regs.frameReady = true ∧ i.performs .ack = false ∧ i.performs .reset = false))

/-- R20, R41, R42: a field changes only in a cycle that performs one of the operations that the table of R20 names as its
writers, and a slot only as the one that a stored pulse of the cycle writes, or by RESET. -/
def Obligations.EachFieldHasOnlyItsWriters : Prop :=
  ∀ (i : Instr) (s : State), i.performs .reset = false → ∃ u, exec i s = .next u ∧
    u.regs.slots.length = s.regs.slots.length ∧
    (u.regs.prevTs ≠ s.regs.prevTs → i.performs .edge = true) ∧
    (u.regs.idx ≠ s.regs.idx → i.performs .edge = true) ∧
    (∀ j, slotRead u.regs j ≠ slotRead s.regs j →
      i.dataEdge s.regs = true ∧ j = s.regs.idx.toNat ∧ j < s.regs.slots.length) ∧
    (u.regs.frameReady ≠ s.regs.frameReady → i.performs .edge = true ∨ i.performs .ack = true) ∧
    (u.regs.qual ≠ s.regs.qual → i.performs .edge = true ∨ i.performs .tick = true)

/-- R21, R81: over every run `prev_ts` is the timestamp of the most recent edge accepted, or its reset value where none was since
RESET. -/
def Obligations.PreviousTimestampIsThatOfTheLastEdge : Prop :=
  ∀ (s : Regs) (is : List Input), (runRegs s is).prevTs =
    is.foldl (fun p i => if i.rst then 0 else if i.edgeValid then i.edgeTs else p) s.prevTs

/-- R22: over every run without a sync gap or RESET the index grows by the number of pulses stored, and does not pass `N`. -/
def Obligations.IndexCountsThePulsesStored : Prop :=
  ∀ (s : Regs) (is : List Input), s.sized → s.idx.toNat ≤ s.slots.length →
    along (fun s i => !i.rst && !i.syncEdge s) s is = true →
    (runRegs s is).idx.toNat = s.idx.toNat + (runOutputs s is).countP (fun o => o.evClass = .stored) ∧
    (runRegs s is).idx.toNat ≤ s.slots.length

/-- R176: once the index is 4 or more, slots 0 to 3 keep their pairs until a sync gap and then a data pulse (or RESET) have been
presented. -/
def Obligations.FirstFourSlotsAreStableUntilTheNextFrame : Prop :=
  ∀ (s : Regs) (is js : List Input), s.sized → 4 ≤ s.idx.toNat →
    along (fun s i => !i.rst && !i.syncEdge s) s is = true →
    along (fun s i => !i.rst && !i.dataEdge s) (runRegs s is) js = true →
    ∀ j, j < 4 → slotRead (runRegs s (is ++ js)) j = slotRead s j

/-- R180: with all slots of the frame stored, a stream without sync gaps never stores again: the index and the slots stay, and
every data pulse is an OVERRUN. -/
def Obligations.StreamWithoutSyncGapsOnlyOverruns : Prop :=
  ∀ (s : Regs) (is : List Input), s.idx.toNat = s.slots.length →
    along (fun s i => !i.rst && !i.syncEdge s) s is = true →
    (runRegs s is).idx = s.idx ∧ (runRegs s is).slots = s.slots ∧
    ∀ o ∈ runOutputs s is, dataWidth o.evWidth.toNat → o.evClass = .overrun

/-! ### The invariant -/

/-- R30, R26: the reset state has the invariant, for the hardware's slot count and for every legal one. -/
def Obligations.ResetStateHasTheInvariant : Prop :=
  State.reset.Inv ∧ ∀ n, Config.legalCount n → (State.resetFor n).Inv

/-- R22, R25, R26: every step keeps the invariant, from every state that has it: the slot count is legal, the index does not
pass `N`, the counter does not pass 200, every `cap` is 0 or 750 to 2250, every `dif` is a multiple of 3 from -1500 to
2250. -/
def Obligations.StepKeepsTheInvariant : Prop :=
  ∀ s u : State, s.Inv → step s = .next u → u.Inv

/-- R26, all its clauses: in every state reached from a reset by any input sequence the index, the counter and the slots are in
range, and the slots at or above the index were not written since the last sync gap. -/
def Obligations.ReachedStatesHaveRule26 : Prop :=
  ∀ (n : Nat) (is js : List Input), Config.legalCount n →
    along (fun s i => !i.rst && !i.syncEdge s) (runRegs (Regs.reset n) is) js = true →
    (runRegs (Regs.reset n) (is ++ js)).slots.length = n ∧ (runRegs (Regs.reset n) (is ++ js)).Inv ∧
    ∀ j, (runRegs (Regs.reset n) (is ++ js)).idx.toNat ≤ j →
      slotRead (runRegs (Regs.reset n) (is ++ js)) j = slotRead (runRegs (Regs.reset n) is) j

/-! ### Decode and encode -/

/-- R62, R63: the decoder gives back every term from its control word, also through the table's numbering of bits.
That a word is one term with its other strobes as operands, and a table word one 32-bit number, is the model's (logs 6 and 10). -/
def Obligations.DecodingAnEncodedTermGivesItBack : Prop :=
  ∀ i : Instr, decode (encode i) = .ok i ∧ decodeTableWord 32 (encode i).toNat = some i

/-- R62, R66: a control word that the decoder accepts is the encoding of what it gives: no bit is dropped
(the term's form is the model's, log 6). -/
def Obligations.EncodingADecodedWordGivesItBack : Prop :=
  ∀ (cw : CW) (i : Instr), decode cw = .ok i → encode i = cw

/-- R63 and spec/opcode_table.json: a control word matches a row of the table exactly where the decoded term performs the row's
operation, and a word with a reserved bit matches no row (the term's form is the model's, log 6). -/
def Obligations.MatchedRowsAreTheOperationsPerformed : Prop :=
  ∀ (cw : CW) (r : OpcodeRow), r ∈ opcodeTable →
    (∀ i, decode cw = .ok i → (r.holds cw = true ↔ i.performs r.op = true)) ∧
    (cw.extractLsb' 16 12 ≠ 0 → r.holds cw = false)

/-- R62, R63: control words of 95_test_vectors.md decode to the operations they stand for, as terms of the
model's form (log 6). -/
def Obligations.SampleWordsDecode : Prop :=
  decode 0x80000000 = .ok (.reset false false false 0) ∧ decode 0xF000ABCD = .ok (.reset true true true 0xABCD) ∧
  decode 0x40002710 = .ok (.edge false false 10000) ∧ decode 0x60001B58 = .ok (.edge true false 7000) ∧
  decode 0x5000270F = .ok (.edge false true 9999) ∧ decode 0x20000000 = .ok (.tick false 0) ∧
  decode 0x10000000 = .ok (.ack 0) ∧ decode 0x0000ABCD = .ok (.idle 0xABCD)

/-- R64: EDGE takes `CW[15:0]` as it is; without EDGE the field is ignored. -/
def Obligations.TimestampFieldIsTheOperandOfEdgeOnly : Prop :=
  (∀ (s : State) (p : Ports) (cw : CW), cw.extractLsb' 16 12 = 0 → cw.getLsbD 31 = false → cw.getLsbD 30 = true →
    ∃ u, step (s.present ⟨cw, p⟩) = .next u ∧ u.regs.prevTs = cw.extractLsb' 0 16) ∧
  (∀ (s : State) (p : Ports) (cw cw' : CW), cw.getLsbD 30 = false → cw.extractLsb' 16 16 = cw'.extractLsb' 16 16 →
    step (s.present ⟨cw, p⟩) = step (s.present ⟨cw', p⟩))

/-- R69: the control word of a legal program line decodes to a well-formed term that performs exactly the line's items, and every
well-formed term is that of some line. That `TS` is 0 without `EDGE` is inferred from R69 (log 9). -/
def Obligations.ProgramLinesAreTheWellFormedTerms : Prop :=
  (∀ l : Line, l.legal = true → ∃ i, decode l.cw = .ok i ∧ i.wellFormed = true ∧ i.performs .reset = l.reset ∧
    i.performs .edge = l.edge.isSome ∧ i.performs .tick = l.tick ∧ i.performs .ack = l.ack ∧
    i.performs .idle = (!l.reset && !l.edge.isSome && !l.tick && !l.ack) ∧
    ∀ ts, l.edge = some ts → ∃ t a, i = .edge t a ts) ∧
  (∀ i : Instr, i.wellFormed = true → ∃ l : Line, l.legal = true ∧ l.cw = encode i)

/-- R70: `PULSES t0 : w1, ..., wk` after an edge at `t0` decodes to the steps, each less one where it passes 65535. -/
def Obligations.PulsesDecodeToTheirStepsLessOneAtAWrap : Prop :=
  ∀ (s : Regs) (t0 : Nat) (ws : List Nat), s.prevTs.toNat = t0 → (∀ w ∈ ws, 1 ≤ w ∧ w ≤ 65535) →
    (runOutputs s ((Stmt.pulses t0 ws).lines.map fun l => l.sample.input)).map (fun o => o.evWidth.toNat) =
      decodedWidths t0 ws

/-! ### The step -/

/-- R62, R63: a step runs the term that the next control word decodes to, in the state whose data ports that cycle's sample
drives and whose list of samples to come has lost it (the model's own fields, log 2); a word that `withFetchWord` presents runs
with data ports 0 (log 3). -/
def Obligations.StepRunsTheDecodedTerm : Prop :=
  (∀ (s : State) (d : PortSample) (ds : List PortSample) (i : Instr), s.inputs = d :: ds → decode d.cw = .ok i →
    step s = exec i { s with ports := d.ports, inputs := ds }) ∧
  (∀ (s : State) (nbits w : Nat) (i : Instr), decodeTableWord nbits w = some i →
    step (s.withFetchWord nbits w) = exec i { s with ports := Ports.quiet })

/-- R66, 93_implementation_defined.md U2: a control word with a reserved bit is refused by name with its field, and only such a
word (log 7). -/
def Obligations.ReservedBitsAreRefused : Prop :=
  ∀ (s : State) (d : PortSample),
    (d.cw.extractLsb' 16 12 ≠ 0 → step (s.present d) = .refused (.reservedBits (d.cw.extractLsb' 16 12))) ∧
    (d.cw.extractLsb' 16 12 = 0 → ∃ u, step (s.present d) = .next u)

/-- R138, R150: every operation in every state ends in a next state; a step never faults, and stops only on a reserved bit. With
no sample left a step is an IDLE cycle: that is the model's choice (log 3). -/
def Obligations.NothingStopsButAReservedBit : Prop :=
  (∀ (i : Instr) (s : State), ∃ u, exec i s = .next u) ∧
  (∀ s : State, (∃ u, step s = .next u) ∨
    ∃ d ds, s.inputs = d :: ds ∧ d.cw.extractLsb' 16 12 ≠ 0 ∧ step s = .refused (.reservedBits (d.cw.extractLsb' 16 12))) ∧
  (∀ s : State, s.inputs = [] → ∃ u, step s = .next u ∧ u.regs = s.regs ∧ u.inputs = [])

/-- R140: a step is the cycle that R140 composes of the operations, on the input record of R60: next state and outputs. The
other fields are the model's own (log 2), and the sample of a state with none to come is the model's choice of an IDLE cycle with
data ports 0 (log 3). -/
def Obligations.StepIsTheComposedCycle : Prop :=
  ∀ s : State, s.nextSample.cw.extractLsb' 16 12 = 0 →
    step s = .next
      { regs := (cycle s.regs.cfg s.regs s.nextSample.input).1
        ports := s.nextSample.ports
        inputs := s.inputs.tail
        observed := (cycle s.regs.cfg s.regs s.nextSample.input).2 :: s.observed }

/-- R13, R140: over every input sequence without reserved bits the machine's run ends in the state of the composed cycles, and
what it observed is their sequence of outputs (held in the model's own fields, log 2). -/
def Obligations.RunObservesTheOutputsOfItsInputSequence : Prop :=
  ∀ (s : State) (ds : List PortSample), s.inputs = ds → (∀ d ∈ ds, d.cw.extractLsb' 16 12 = 0) →
    ∃ u : State, Host.Core.run Sys2Proof.core ds.length s = .next u ∧
      u.regs = runRegs s.regs (ds.map PortSample.input) ∧ u.inputs = [] ∧
      u.observed = (runOutputs s.regs (ds.map PortSample.input)).reverse ++ s.observed
end

