-- ==== Sys2Proof/Laws/State.lean ====
section
/-! SUPPORT. The small lemmas of State's updates: one per field per update. -/

namespace Sys2Proof.Machine

variable (s : State) (d : PortSample) (c : EvClass) (w : BitVec 16) (r : Regs)

@[simp] theorem State.commit_regs : (s.commit c w r).regs = r := rfl
@[simp] theorem State.commit_ports : (s.commit c w r).ports = s.ports := rfl
@[simp] theorem State.commit_inputs : (s.commit c w r).inputs = s.inputs := rfl
@[simp] theorem State.commit_observed :
    (s.commit c w r).observed = outputs s.regs.cfg s.regs s.ports c w :: s.observed := rfl

@[simp] theorem State.present_regs : (s.present d).regs = s.regs := rfl
@[simp] theorem State.present_ports : (s.present d).ports = s.ports := rfl
@[simp] theorem State.present_inputs : (s.present d).inputs = d :: s.inputs := rfl
@[simp] theorem State.present_observed : (s.present d).observed = s.observed := rfl
@[simp] theorem State.present_nextSample : (s.present d).nextSample = d := rfl

@[simp] theorem State.sampled_regs : s.sampled.regs = s.regs := rfl
@[simp] theorem State.sampled_ports : s.sampled.ports = s.nextSample.ports := rfl
@[simp] theorem State.sampled_inputs : s.sampled.inputs = s.inputs.tail := rfl
@[simp] theorem State.sampled_observed : s.sampled.observed = s.observed := rfl

theorem State.nextSample_cons {s : State} {ds : List PortSample} (h : s.inputs = d :: ds) : s.nextSample = d := by
  simp [State.nextSample, h]

theorem State.nextSample_nil {s : State} (h : s.inputs = []) : s.nextSample = PortSample.quiet := by
  simp [State.nextSample, h]

@[simp] theorem Regs.reset_prevTs (n : Nat) : (Regs.reset n).prevTs = 0 := rfl
@[simp] theorem Regs.reset_idx (n : Nat) : (Regs.reset n).idx = 0 := rfl
@[simp] theorem Regs.reset_slots (n : Nat) : (Regs.reset n).slots = List.replicate n Slot.zero := rfl
@[simp] theorem Regs.reset_frameReady (n : Nat) : (Regs.reset n).frameReady = false := rfl
@[simp] theorem Regs.reset_qual (n : Nat) : (Regs.reset n).qual = 0 := rfl
@[simp] theorem State.resetFor_regs (n : Nat) : (State.resetFor n).regs = Regs.reset n := rfl

/-- The open parameter `N` is legal whatever it is (00_scope.md R8). -/
theorem ppmNumInputs_legal : Config.legalCount Config.ppmNumInputs := by
  have h := Config.slotsAfterTheFirst.isLt
  simp only [Config.legalCount, Config.ppmNumInputs]
  omega

end Sys2Proof.Machine
end

