-- ==== Sys2Proof/Laws/Ops.lean ====
section
/-! SUPPORT. One lemma per shared operation that says once what it can do. -/

namespace Sys2Proof.Machine

/-! ### Width and class -/

theorem width_le (n : Nat) {p c : Nat} (hp : p < 65536) (hc : c < 65536) : width (Config.cfg n) p c ≤ 65535 := by
  simp only [width]
  split <;> omega

/-- The model's width is the rule's (40_decoder.md R82), for every slot count. -/
theorem width_eq_ruleWidth (n : Nat) (s : Regs) (ts : Ts) :
    width (Config.cfg n) s.prevTs.toNat ts.toNat = ruleWidth s ts := by
  simp [width, ruleWidth]

theorem ruleWidth_lt (s : Regs) (ts : Ts) : ruleWidth s ts < 65536 := by
  have h := width_le 1 s.prevTs.isLt ts.isLt
  rw [width_eq_ruleWidth] at h
  omega

theorem classify_sync (n : Nat) {w : Nat} (h : syncWidth w) : classify (Config.cfg n) w = .sync := by
  simp [classify, h]

theorem classify_data (n : Nat) {w : Nat} (h : dataWidth w) : classify (Config.cfg n) w = .data := by
  simp [classify, h, show ¬ 8000 < w by omega]

theorem classify_noise (n : Nat) {w : Nat} (h : noiseWidth w) : classify (Config.cfg n) w = .noise := by
  simp only [classify]
  rw [if_neg (by omega), if_neg (by omega)]

/-- Every width has one of the three classes (40_decoder.md R84). -/
theorem width_cases (w : Nat) : syncWidth w ∨ dataWidth w ∨ noiseWidth w := by omega

/-! ### The quantised derivative -/

/-- `trunc_div` by 3 times 3 loses less than 3, toward zero (40_decoder.md R89). -/
theorem quantDiff_spec (n : Nat) (h old : Int) :
    ∃ r : Int, h - old = quantDiff (Config.cfg n) h old + r ∧
      (0 ≤ h - old → 0 ≤ r ∧ r < 3) ∧ (h - old ≤ 0 → -3 < r ∧ r ≤ 0) := by
  refine ⟨(h - old).tmod 3, ?_, fun hp => ?_, fun hn => ?_⟩
  · simp only [quantDiff, truncDiv]
    have := Int.tmod_add_mul_tdiv (h - old) 3
    omega
  · exact ⟨Int.tmod_nonneg 3 hp, Int.tmod_lt_of_pos _ (by decide)⟩
  · have h1 : (old - h).tmod 3 = -(h - old).tmod 3 := by rw [← Int.neg_tmod]; congr 1; omega
    have h2 := Int.tmod_nonneg (a := old - h) 3 (by omega)
    have h3 := Int.tmod_lt_of_pos (old - h) (b := 3) (by decide)
    omega

/-- The quantised derivative is a multiple of 3. -/
theorem quantDiff_mod (n : Nat) (h old : Int) : quantDiff (Config.cfg n) h old % 3 = 0 := by
  simp [quantDiff]

/-- From an old value of 10_state.md R26 and a half width of a data pulse the derivative stays in its range
(40_decoder.md R89). -/
theorem difField_inRange (n : Nat) {h old : Int} (hh : 750 ≤ h ∧ h ≤ 2250) (ho : old = 0 ∨ (750 ≤ old ∧ old ≤ 2250)) :
    difInRange (difField (Config.cfg n) h old) := by
  obtain ⟨r, hr, hp, hn⟩ := quantDiff_spec n h old
  have hm := quantDiff_mod n h old
  have hq : -1500 ≤ quantDiff (Config.cfg n) h old ∧ quantDiff (Config.cfg n) h old ≤ 2250 := by omega
  have hf : fitsS16 (quantDiff (Config.cfg n) h old) := by constructor <;> omega
  have ht : (difField (Config.cfg n) h old).toInt = quantDiff (Config.cfg n) h old := by
    rw [difField, if_pos hf, BitVec.toInt_ofInt, Int.bmod_def]
    omega
  rw [difInRange, ht]
  exact ⟨hm, hq⟩

/-! ### The quality counter -/

/-- `qual_next` as one formula (41_quality.md R110). -/
theorem qualNext_eq (n q : Nat) (qinc tick : Bool) : qualNext (Config.cfg n) q qinc tick =
    (if qinc then min (q + 10) 200 else q) - (if tick then 1 else 0) := by
  simp only [qualNext]
  cases qinc <;> cases tick <;> simp
  all_goals omega

theorem qualNext_lt (n : Nat) {q : Nat} (h : q < 256) (qinc tick : Bool) : qualNext (Config.cfg n) q qinc tick < 256 := by
  rw [qualNext_eq]
  cases qinc <;> cases tick <;> simp <;> omega

theorem qualNext_le (n : Nat) {q : Nat} (h : q ≤ 200) (qinc tick : Bool) : qualNext (Config.cfg n) q qinc tick ≤ 200 := by
  rw [qualNext_eq]
  cases qinc <;> cases tick <;> simp <;> omega

/-- The next counter value fits its field (41_quality.md R110). -/
theorem qualNext_toNat (n : Nat) (q : U8) (qinc tick : Bool) :
    (BitVec.ofNat 8 (qualNext (Config.cfg n) q.toNat qinc tick)).toNat = qualNext (Config.cfg n) q.toNat qinc tick := by
  have h := qualNext_lt n q.isLt qinc tick
  simp [Nat.mod_eq_of_lt h]

theorem qualNext_none (n q : Nat) : qualNext (Config.cfg n) q false false = q := by simp [qualNext_eq]

/-! ### The status word -/

theorem failsafe_iff (s : Regs) : failsafe s = true ↔ s.qual.toNat = 0 := by
  simp [failsafe, ← BitVec.toNat_inj]

theorem statusWord_cast (n : Nat) (s : Regs) : statusWord (Config.cfg n) s = BitVec.cast (by decide)
    ((0 : BitVec 12) ++ BitVec.ofBool (updateEn s) ++ BitVec.ofBool (sigOk (Config.cfg n) s) ++
      BitVec.ofBool (failsafe s) ++ BitVec.ofBool s.frameReady ++ s.idx ++ s.qual :
        BitVec (12 + 1 + 1 + 1 + 1 + 8 + 8)) := rfl

/-- Every bit of `STATUS` (10_state.md R28). -/
theorem getLsbD_statusWord (n : Nat) (s : Regs) (i : Nat) : (statusWord (Config.cfg n) s).getLsbD i =
    if i < 8 then s.qual.getLsbD i else if i < 16 then s.idx.getLsbD (i - 8)
    else if i = 16 then s.frameReady else if i = 17 then failsafe s else if i = 18 then sigOk (Config.cfg n) s
    else if i = 19 then updateEn s else false := by
  rw [statusWord_cast]
  simp only [BitVec.getLsbD_cast, BitVec.getLsbD_append, BitVec.getLsbD_ofBool]
  by_cases h8 : i < 8
  · simp [h8]
  by_cases h16 : i < 16
  · simp [h8, h16, show i - 8 < 8 by omega]
  by_cases h20 : i < 20
  · have hi : i = 16 ∨ i = 17 ∨ i = 18 ∨ i = 19 := by omega
    rcases hi with rfl | rfl | rfl | rfl <;> simp
  · simp [h8, h16, show ¬ i - 8 < 8 by omega, show i - 8 - 8 ≠ 0 by omega, show i - 8 - 8 - 1 ≠ 0 by omega,
      show i - 8 - 8 - 1 - 1 ≠ 0 by omega, show i - 8 - 8 - 1 - 1 - 1 ≠ 0 by omega, show i ≠ 16 by omega,
      show i ≠ 17 by omega, show i ≠ 18 by omega, show i ≠ 19 by omega]

/-! ### Slots -/

theorem slotRead_mem {s : Regs} {i : Nat} (h : i < s.slots.length) : slotRead s i ∈ s.slots := by
  simp [slotRead, h]

/-- A slot write is seen at its index and nowhere else (20_memory.md R42). -/
theorem slotRead_set (s : Regs) (i j : Nat) (x : Slot) (h : i < s.slots.length) :
    slotRead { s with slots := s.slots.set i x } j = if j = i then x else slotRead s j := by
  simp only [slotRead, List.getElem?_set]
  split <;> simp_all [eq_comm]

@[simp] theorem slotWrite_slots (s : Regs) (i : Nat) (c d : S16) :
    (slotWrite s i c d).slots = s.slots.set i ⟨c, d⟩ := rfl

@[simp] theorem slotRead_prevTs (s : Regs) (ts : Ts) (i : Nat) : slotRead { s with prevTs := ts } i = slotRead s i := rfl

/-! ### EDGE -/

theorem edgeOp_sync {s : Regs} {ts : Ts} (h : syncWidth (ruleWidth s ts)) : edgeOp s.cfg s ts =
    ⟨{ s with prevTs := ts, idx := 0 }, false, false, .sync, BitVec.ofNat 16 (ruleWidth s ts)⟩ := by
  simp only [edgeOp, width_eq_ruleWidth, classify_sync _ h]

theorem edgeOp_noise {s : Regs} {ts : Ts} (h : noiseWidth (ruleWidth s ts)) : edgeOp s.cfg s ts =
    ⟨{ s with prevTs := ts }, false, false, .noise, BitVec.ofNat 16 (ruleWidth s ts)⟩ := by
  simp only [edgeOp, width_eq_ruleWidth, classify_noise _ h]

theorem edgeOp_stored {s : Regs} {ts : Ts} (h : dataWidth (ruleWidth s ts)) (hi : s.idx.toNat < s.slots.length) :
    edgeOp s.cfg s ts =
      ⟨{ s with
          prevTs := ts
          slots := s.slots.set s.idx.toNat ⟨BitVec.ofNat 16 (ruleWidth s ts / 2),
            difField s.cfg (ruleWidth s ts / 2 : Nat) (slotRead s s.idx.toNat).cap.toInt⟩
          idx := BitVec.ofNat 8 (s.idx.toNat + 1) },
        true, decide (4 ≤ s.idx.toNat + 1), .stored, BitVec.ofNat 16 (ruleWidth s ts)⟩ := by
  simp only [edgeOp, width_eq_ruleWidth, classify_data _ h, if_pos hi, halfWidth, slotWrite]

theorem edgeOp_overrun {s : Regs} {ts : Ts} (h : dataWidth (ruleWidth s ts)) (hi : s.slots.length ≤ s.idx.toNat) :
    edgeOp s.cfg s ts =
      ⟨{ s with prevTs := ts }, true, false, .overrun, BitVec.ofNat 16 (ruleWidth s ts)⟩ := by
  simp only [edgeOp, width_eq_ruleWidth, classify_data _ h, if_neg (Nat.not_lt.mpr hi)]

/-- All that EDGE can do (40_decoder.md R85 to R91): a sync gap, noise, a stored pulse or an overrun. -/
theorem edgeOp_cases (s : Regs) (ts : Ts) :
    syncWidth (ruleWidth s ts) ∨ noiseWidth (ruleWidth s ts) ∨
      (dataWidth (ruleWidth s ts) ∧ s.idx.toNat < s.slots.length) ∨
      (dataWidth (ruleWidth s ts) ∧ s.slots.length ≤ s.idx.toNat) := by
  rcases width_cases (ruleWidth s ts) with h | h | h
  · exact .inl h
  · rcases Nat.lt_or_ge s.idx.toNat s.slots.length with hi | hi
    · exact .inr (.inr (.inl ⟨h, hi⟩))
    · exact .inr (.inr (.inr ⟨h, hi⟩))
  · exact .inr (.inl h)

/-- EDGE never changes the number of slots. -/
theorem edgeOp_length (cfg : Cfg) (s : Regs) (ts : Ts) : (edgeOp cfg s ts).regs.slots.length = s.slots.length := by
  simp only [edgeOp]
  split
  · rfl
  · rfl
  · split <;> simp

theorem resetRegs_length (s : Regs) : (resetRegs s.cfg).slots.length = s.slots.length := by
  simp [resetRegs]

/-- EDGE asks for the increment exactly where its width is a data pulse (40_decoder.md R87). -/
theorem edgeOp_qinc (s : Regs) (ts : Ts) : (edgeOp s.cfg s ts).qinc = decide (dataWidth (ruleWidth s ts)) := by
  rcases edgeOp_cases s ts with h | h | ⟨h, hi⟩ | ⟨h, hi⟩
  · rw [edgeOp_sync h, decide_eq_false (by omega)]
  · rw [edgeOp_noise h, decide_eq_false (by omega)]
  · rw [edgeOp_stored h hi, decide_eq_true h]
  · rw [edgeOp_overrun h hi, decide_eq_true h]

/-- The width an EDGE shows is the rule's (40_decoder.md R92). -/
theorem edgeOp_evWidth (s : Regs) (ts : Ts) : (edgeOp s.cfg s ts).evWidth.toNat = ruleWidth s ts := by
  have hw := ruleWidth_lt s ts
  rcases edgeOp_cases s ts with h | h | ⟨h, hi⟩ | ⟨h, hi⟩
  · rw [edgeOp_sync h]; simp [Nat.mod_eq_of_lt hw]
  · rw [edgeOp_noise h]; simp [Nat.mod_eq_of_lt hw]
  · rw [edgeOp_stored h hi]; simp [Nat.mod_eq_of_lt hw]
  · rw [edgeOp_overrun h hi]; simp [Nat.mod_eq_of_lt hw]

end Sys2Proof.Machine
end

