-- ==== Sys2Proof/Laws/Cycle.lean ====
section
/-! SUPPORT. What each meaning answers, what a cycle of 42_control.md R140 does, and how runs compose. -/

namespace Sys2Proof.Machine

variable (e t a : Bool) (ts : Ts) (s : State)

/-! ### What each meaning answers -/

theorem exec_reset : exec (.reset e t a ts) s = .next (s.commit .none 0 (Regs.reset s.regs.slots.length)) := rfl

theorem exec_edge : exec (.edge t a ts) s =
    .next (s.commit (edgeOp s.regs.cfg s.regs ts).evClass (edgeOp s.regs.cfg s.regs ts).evWidth
      { (edgeOp s.regs.cfg s.regs ts).regs with
        qual := BitVec.ofNat 8 (qualNext s.regs.cfg s.regs.qual.toNat (edgeOp s.regs.cfg s.regs ts).qinc t)
        frameReady := frameReadyNext (edgeOp s.regs.cfg s.regs ts).frSet s.regs.frameReady a }) := rfl

theorem exec_tick : exec (.tick a ts) s = .next (s.commit .none 0
    { s.regs with
      qual := BitVec.ofNat 8 (qualNext s.regs.cfg s.regs.qual.toNat false true)
      frameReady := frameReadyNext false s.regs.frameReady a }) := rfl

theorem exec_ack : exec (.ack ts) s = .next (s.commit .none 0
    { s.regs with frameReady := frameReadyNext false s.regs.frameReady true }) := rfl

theorem exec_idle : exec (.idle ts) s = .next (s.commit .none 0 s.regs) := rfl

/-- Every operation ends its cycle in a next state, with its ports and the inputs to come as they were and one more output
record; its Moore outputs are those of the state at the start (42_control.md R139). -/
theorem exec_shape (i : Instr) : ∃ c w r, exec i s = .next (s.commit c w r) := by
  cases i with
  | reset e t a ts => exact ⟨_, _, _, exec_reset e t a ts s⟩
  | edge t a ts => exact ⟨_, _, _, exec_edge t a ts s⟩
  | tick a ts => exact ⟨_, _, _, exec_tick a ts s⟩
  | ack ts => exact ⟨_, _, _, exec_ack ts s⟩
  | idle ts => exact ⟨_, _, _, exec_idle ts s⟩

/-! ### The cycle of 42_control.md R140 -/

theorem cycle_reset {cfg : Cfg} {s : Regs} {i : Input} (h : i.rst = true) : (cycle cfg s i).1 = Regs.reset cfg.n := by
  simp [cycle, h, resetRegs]

theorem cycle_edge {cfg : Cfg} {s : Regs} {i : Input} (hr : i.rst = false) (he : i.edgeValid = true) :
    (cycle cfg s i).1 = { (edgeOp cfg s i.edgeTs).regs with
      qual := BitVec.ofNat 8 (qualNext cfg s.qual.toNat (edgeOp cfg s i.edgeTs).qinc i.tick)
      frameReady := frameReadyNext (edgeOp cfg s i.edgeTs).frSet s.frameReady i.frameAck } := by
  simp [cycle, hr, he]

theorem cycle_noEdge {cfg : Cfg} {s : Regs} {i : Input} (hr : i.rst = false) (he : i.edgeValid = false) :
    (cycle cfg s i).1 = { s with
      qual := BitVec.ofNat 8 (qualNext cfg s.qual.toNat false i.tick)
      frameReady := frameReadyNext false s.frameReady i.frameAck } := by
  simp [cycle, hr, he, EdgeResult.absent]

/-- The event outputs of a cycle without RESET (40_decoder.md R92). -/
theorem cycle_event {s : Regs} {i : Input} (hr : i.rst = false) :
    (cycle s.cfg s i).2.evClass = (if i.edgeValid then (edgeOp s.cfg s i.edgeTs).evClass else .none) ∧
      (cycle s.cfg s i).2.evWidth.toNat = (if i.edgeValid then ruleWidth s i.edgeTs else 0) := by
  cases he : i.edgeValid
  · simp [cycle, hr, he, outputs, EdgeResult.absent]
  · simp only [cycle, hr, he, outputs]
    exact ⟨rfl, edgeOp_evWidth _ _⟩

/-- A cycle keeps the number of slots: `CFG` is fixed for the life of the hardware (00_scope.md R7). -/
theorem cycle_length (s : Regs) (i : Input) : (cycle s.cfg s i).1.slots.length = s.slots.length := by
  cases hr : i.rst
  · cases he : i.edgeValid
    · rw [cycle_noEdge hr he]
    · rw [cycle_edge hr he]; exact edgeOp_length _ _ _
  · rw [cycle_reset hr]; simp

/-! ### Runs -/

theorem runRegs_append (s : Regs) (is js : List Input) : runRegs s (is ++ js) = runRegs (runRegs s is) js := by
  induction is generalizing s with
  | nil => rfl
  | cons i is ih => exact ih _

theorem runOutputs_append (s : Regs) (is js : List Input) :
    runOutputs s (is ++ js) = runOutputs s is ++ runOutputs (runRegs s is) js := by
  induction is generalizing s with
  | nil => rfl
  | cons i is ih => simp [runOutputs, runRegs, ih]

theorem along_append (P : Regs → Input → Bool) (s : Regs) (is js : List Input) :
    along P s (is ++ js) = (along P s is && along P (runRegs s is) js) := by
  induction is generalizing s with
  | nil => simp [along, runRegs]
  | cons i is ih => simp [along, runRegs, ih, Bool.and_assoc]

/-- A predicate on states that a cycle keeps, where `P` holds of it, holds after a run along which `P` holds. -/
theorem runRegs_induction {P : Regs → Input → Bool} {Q : Regs → Prop}
    (hstep : ∀ s i, Q s → P s i = true → Q (cycle s.cfg s i).1) (s : Regs) (is : List Input) (hq : Q s)
    (hp : along P s is = true) : Q (runRegs s is) := by
  induction is generalizing s with
  | nil => exact hq
  | cons i is ih =>
    simp only [along, Bool.and_eq_true] at hp
    exact ih _ (hstep s i hq hp.1) hp.2

end Sys2Proof.Machine
end

