-- ==== Sys2Proof/Laws/Decode.lean ====
section
/-! SUPPORT. The bits of a packed control word, and what the decoder can answer. -/

namespace Sys2Proof

variable (r e t a : Bool) (ts : Ts)

theorem packCW_cast : packCW r e t a ts = BitVec.cast (by decide)
    (BitVec.ofBool r ++ BitVec.ofBool e ++ BitVec.ofBool t ++ BitVec.ofBool a ++ (0 : BitVec 12) ++ ts :
      BitVec (1 + 1 + 1 + 1 + 12 + 16)) := rfl

/-- Every bit of the layout of 30_encoding.md R62. -/
theorem getLsbD_packCW (i : Nat) : (packCW r e t a ts).getLsbD i =
    if i < 16 then ts.getLsbD i
    else if i = 28 then a else if i = 29 then t else if i = 30 then e else if i = 31 then r else false := by
  rw [packCW_cast]
  simp only [BitVec.getLsbD_cast, BitVec.getLsbD_append, BitVec.getLsbD_ofBool]
  by_cases h16 : i < 16
  · simp [h16]
  by_cases h28 : i < 28
  · simp [h16, show i - 16 < 12 by omega, show i ≠ 28 by omega, show i ≠ 29 by omega, show i ≠ 30 by omega,
      show i ≠ 31 by omega]
  by_cases h32 : i < 32
  · have hi : i = 28 ∨ i = 29 ∨ i = 30 ∨ i = 31 := by omega
    rcases hi with rfl | rfl | rfl | rfl <;> simp
  · simp [h16, show ¬ i - 16 < 12 by omega, show i - 16 - 12 ≠ 0 by omega, show i - 16 - 12 - 1 ≠ 0 by omega,
      show i - 16 - 12 - 1 - 1 ≠ 0 by omega, show i - 16 - 12 - 1 - 1 - 1 ≠ 0 by omega, show i ≠ 28 by omega,
      show i ≠ 29 by omega, show i ≠ 30 by omega, show i ≠ 31 by omega]

@[simp] theorem packCW_rst : CW.rst (packCW r e t a ts) = r := by
  rw [CW.rst, getLsbD_packCW]; simp

@[simp] theorem packCW_edge : CW.edge (packCW r e t a ts) = e := by
  rw [CW.edge, getLsbD_packCW]; simp

@[simp] theorem packCW_tick : CW.tick (packCW r e t a ts) = t := by
  rw [CW.tick, getLsbD_packCW]; simp

@[simp] theorem packCW_ack : CW.ack (packCW r e t a ts) = a := by
  rw [CW.ack, getLsbD_packCW]; simp

@[simp] theorem packCW_ts : CW.ts (packCW r e t a ts) = ts := by
  ext i hi
  simp [CW.ts, getLsbD_packCW, hi]

@[simp] theorem packCW_reserved : CW.reserved (packCW r e t a ts) = 0 := by
  ext i hi
  simp [CW.reserved, getLsbD_packCW, show 16 + i ≠ 28 by omega, show 16 + i ≠ 29 by omega, show 16 + i ≠ 30 by omega,
    show 16 + i ≠ 31 by omega]

/-- A word with no reserved bit is its own fields, packed. -/
theorem packCW_fields {cw : CW} (h : CW.reserved cw = 0) :
    packCW (CW.rst cw) (CW.edge cw) (CW.tick cw) (CW.ack cw) (CW.ts cw) = cw := by
  refine BitVec.eq_of_getLsbD_eq fun i hi => ?_
  rw [getLsbD_packCW]
  by_cases h16 : i < 16
  · simp [h16, CW.ts]
  by_cases h28 : i < 28
  · have hr := congrArg (fun b : BitVec 12 => b.getLsbD (i - 16)) h
    simp only [CW.reserved, BitVec.getLsbD_extractLsb', show i - 16 < 12 by omega, show 16 + (i - 16) = i by omega] at hr
    simp [h16, show i ≠ 28 by omega, show i ≠ 29 by omega, show i ≠ 30 by omega, show i ≠ 31 by omega]
    simpa using hr.symm
  · have hi : i = 28 ∨ i = 29 ∨ i = 30 ∨ i = 31 := by omega
    rcases hi with rfl | rfl | rfl | rfl <;> simp [CW.rst, CW.edge, CW.tick, CW.ack]

/-- The decoder answers a term exactly where the reserved bits are 0 (30_encoding.md R66). -/
theorem decode_ok_iff {cw : CW} {i : Instr} : decode cw = .ok i ↔ CW.reserved cw = 0 ∧ i = decodeStrobes cw := by
  unfold decode
  split <;> simp_all [eq_comm]

/-- The decoder refuses exactly where a reserved bit is set, and names the field. -/
theorem decode_error_iff {cw : CW} {f : BitVec 12} :
    decode cw = .error (.reservedBits f) ↔ CW.reserved cw ≠ 0 ∧ f = CW.reserved cw := by
  unfold decode
  split <;> simp_all [eq_comm]

end Sys2Proof
end

