-- ==== Sys2Proof/Laws/PerInstr.lean ====
section
/-! SUPPORT. What is said of every operation as syntax, one lemma per constructor of Instr. -/

namespace Sys2Proof

/-- The encoded word sets no reserved bit, and its strobe bits ask for exactly what the term performs
(30_encoding.md R62, R63). -/
def Laws.EncodedStrobes.Statement (i : Instr) : Prop :=
  CW.reserved (encode i) = 0 ∧ CW.rst (encode i) = i.performs .reset ∧
    (CW.rst (encode i) = false → CW.edge (encode i) = i.performs .edge ∧ CW.tick (encode i) = i.performs .tick ∧
      CW.ack (encode i) = i.performs .ack)

theorem Laws.EncodedStrobes.reset (edge tick ack : Bool) (ts : Ts) :
    Laws.EncodedStrobes.Statement (.reset edge tick ack ts) := by
  simp [Laws.EncodedStrobes.Statement, encode, Instr.performs]

theorem Laws.EncodedStrobes.edge (tick ack : Bool) (ts : Ts) : Laws.EncodedStrobes.Statement (.edge tick ack ts) := by
  simp [Laws.EncodedStrobes.Statement, encode, Instr.performs]

theorem Laws.EncodedStrobes.tick (ack : Bool) (ts : Ts) : Laws.EncodedStrobes.Statement (.tick ack ts) := by
  simp [Laws.EncodedStrobes.Statement, encode, Instr.performs]

theorem Laws.EncodedStrobes.ack (ts : Ts) : Laws.EncodedStrobes.Statement (.ack ts) := by
  simp [Laws.EncodedStrobes.Statement, encode, Instr.performs]

theorem Laws.EncodedStrobes.idle (ts : Ts) : Laws.EncodedStrobes.Statement (.idle ts) := by
  simp [Laws.EncodedStrobes.Statement, encode, Instr.performs]

end Sys2Proof
end

