-- ==== Sys2Proof/Tests/Slice0.lean ====
section
/-! SUPPORT. Tests. Expected values are those of 95_test_vectors.md (its vector's name stands at the test) or are worked out by
hand from the rule named; a `witness_<Name>` theorem shows a state and operands that meet the hypotheses of the
statement `Obligations.<Name>`, at the ends of the ranges it speaks of. -/

namespace Sys2Proof.Tests

open Sys2Proof.Machine

/-- A state with 8 slots, all zero but slot 2 = (1000, 999). -/
def at8 (prevTs : Ts) (idx qual : U8) (frameReady : Bool) : Machine.State where
  regs :=
    { prevTs := prevTs, idx := idx, frameReady := frameReady, qual := qual
      slots := (List.replicate 8 Slot.zero).set 2 ⟨1000, 999⟩ }
  ports := ⟨2, ⟨100, -200, 30, 400⟩⟩
  inputs := []
  observed := []

/-- The state a step ends in, `s` itself where it stops. -/
def after (s : Machine.State) : Host.Outcome Machine.State Fault Refusal → Machine.State
  | .next u => u
  | .refused _ => s

/-- A step ends in a next state. -/
def isNext : Host.Outcome Machine.State Fault Refusal → Bool
  | .next _ => true
  | .refused _ => false

/-! ### WellFormed refuses -/

theorem test_wf_refuses_reset_with_edge : (Instr.reset true false false 0).wellFormed = false := by decide
theorem test_wf_refuses_reset_with_tick : (Instr.reset false true false 0).wellFormed = false := by decide
theorem test_wf_refuses_reset_with_ack : (Instr.reset false false true 0).wellFormed = false := by decide
theorem test_wf_refuses_timestamp_on_reset : (Instr.reset false false false 1).wellFormed = false := by decide
theorem test_wf_refuses_timestamp_on_tick : (Instr.tick true 1).wellFormed = false := by decide
theorem test_wf_refuses_timestamp_on_ack : (Instr.ack 1).wellFormed = false := by decide
theorem test_wf_refuses_timestamp_on_idle : (Instr.idle 0xABCD).wellFormed = false := by decide
theorem test_wf_accepts_edge_tick_ack : (Instr.edge true true 65535).wellFormed = true := by decide

/-! ### Decoding: words written out bit by bit from 30_encoding.md R62 (RST EDGE TICK ACK, twelve zeros, TS) -/

theorem test_decode_reset : decodeTableWord 32 0b1000_000000000000_0000000000000000 =
    some (.reset false false false 0) := by decide
theorem test_decode_reset_ignored_bits : decodeTableWord 32 0b1111_000000000000_1010101111001101 =
    some (.reset true true true 0xABCD) := by decide
theorem test_decode_edge : decodeTableWord 32 0b0100_000000000000_0010011100010000 =
    some (.edge false false 10000) := by decide
theorem test_decode_edge_tick_ack : decodeTableWord 32 0b0111_000000000000_1000000000000001 =
    some (.edge true true 0x8001) := by decide
theorem test_decode_tick : decodeTableWord 32 0b0010_000000000000_0000000000000000 = some (.tick false 0) := by decide
theorem test_decode_tick_ack : decodeTableWord 32 0b0011_000000000000_0000000000000000 = some (.tick true 0) := by decide
theorem test_decode_ack : decodeTableWord 32 0b0001_000000000000_0000000000000000 = some (.ack 0) := by decide
theorem test_decode_idle : decodeTableWord 32 0b0000_000000000000_1010101111001101 = some (.idle 0xABCD) := by decide
theorem test_decode_refuses_lowest_reserved_bit :
    decodeTableWord 32 0b0100_000000000001_0000000000000000 = none := by decide
theorem test_decode_refuses_highest_reserved_bit :
    decodeTableWord 32 0b1000_100000000000_0000000000000000 = none := by decide
theorem test_encode_edge_tick : encode (.edge true false 7000) = 0x60001B58 := by decide
theorem test_table_words_run_from_reset : [0x80000000, 0x40000ABC, 0x400007D0, 0x20000000, 0x10000000, 0].all
    (fun w => isNext (step (Machine.State.reset.withFetchWord 32 w))) = true := by decide

/-! ### Operations -/

/-- Vectors W1 to W12 and C1 to C6: previous and current timestamp, width, class. -/
theorem test_width_and_class_vectors :
    [(10000, 13000, 3000, WidthClass.data), (0, 1500, 1500, .data), (65000, 1000, 1535, .data), (64000, 0, 1535, .data),
      (65535, 0, 0, .noise), (65535, 1499, 1499, .noise), (65535, 1500, 1500, .data), (5000, 5000, 65535, .sync),
      (0, 0, 65535, .sync), (0, 65535, 65535, .sync), (1, 0, 65534, .sync), (65000, 7000, 7535, .noise),
      (30000, 31499, 1499, .noise), (30000, 31500, 1500, .data), (30000, 38000, 8000, .noise), (30000, 38001, 8001, .sync),
      (30000, 34500, 4500, .data), (30000, 34501, 4501, .noise)].all
    (fun (p, c, w, k) => width (Config.cfg 8) p c == w && decide (classify (Config.cfg 8) w = k)) = true := by decide

/-- Vectors D1 to D12: width, old `cap`, `cap` and `dif` written. -/
theorem test_stored_value_vectors :
    [(3000, 0, 1500, 1500), (2000, 1000, 1000, 0), (3001, 1500, 1500, 0), (1500, 2250, 750, -1500), (4500, 750, 2250, 1500),
      (1992, 1000, 996, -3), (1996, 1000, 998, 0), (2002, 1000, 1001, 0), (2000, 1500, 1000, -498), (1501, 0, 750, 750),
      (4499, 0, 2249, 2247), (1999, 1001, 999, 0)].all
    (fun (w, old, cap, dif) => ((halfWidth w : Nat) : Int) == cap &&
      (difField (Config.cfg 8) (halfWidth w : Nat) old).toInt == dif) = true := by decide

/-- Vectors Q1 to Q12: counter, `qinc`, TICK, next counter. -/
theorem test_quality_vectors :
    [(0, true, false, 10), (0, false, true, 0), (0, true, true, 9), (1, false, true, 0), (190, true, false, 200),
      (191, true, false, 200), (195, true, false, 200), (200, true, false, 200), (200, true, true, 199),
      (200, false, true, 199), (99, true, false, 109), (50, false, false, 50)].all
    (fun (q, qinc, tick, q') => qualNext (Config.cfg 8) q qinc tick == q') = true := by decide

/-- Vectors G1 to G7: counter, mark, `STATUS[19:16]`, and whether the gate passes. -/
theorem test_gating_vectors :
    [((0 : U8), false, (0b0010 : BitVec 4), false), (0, true, 0b0011, false), (1, true, 0b1001, true),
      (1, false, 0b0000, true), (100, false, 0b0000, true), (101, true, 0b1101, true), (200, true, 0b1101, true)].all
    (fun (q, fr, bits, pass) =>
      let s := (at8 0 0 q fr).regs
      (statusWord s.cfg s).extractLsb' 16 4 == bits &&
        decide (gate s ⟨100, -200, 30, 400⟩ = if pass then ⟨100, -200, 30, 400⟩ else ⟨0, 0, 0, 0⟩)) = true := by decide

/-- Vectors RD3 to RD5: in range, and the first and the last index out of range. -/
theorem test_read_port_vectors :
    let s := (at8 0 2 0 false).regs
    readPort s.cfg s 2 = ⟨1000, 999⟩ ∧ rdOob s.cfg 7 = false ∧ rdOob s.cfg 8 = true ∧ readPort s.cfg s 255 = ⟨0, 0⟩ := by
  decide

/-- 00_scope.md R11: rounding toward zero. -/
theorem test_trunc_div : truncDiv (-4) 3 = -1 ∧ truncDiv 4 3 = 1 ∧ truncDiv (-2) 3 = 0 := by decide

/-! ### One step of each operation -/

/-- Vector F4: the fourth pulse sets the mark over the cycle's own ACK. -/
theorem test_edge_stores_and_set_wins :
    let u := after (at8 10000 3 0 true) (exec (.edge false true 13000) (at8 10000 3 0 true))
    u.regs.idx = 4 ∧ u.regs.frameReady = true ∧ slotRead u.regs 3 = ⟨1500, 1500⟩ ∧ u.regs.qual = 10 := by decide

/-- Vectors F5 and Q3: an overrun writes no slot and raises the counter; with TICK it leaves 9 from 0. -/
theorem test_edge_overrun_with_tick :
    let s := at8 32000 8 0 true
    let u := after s (exec (.edge true false 33700) s)
    u.regs = { s.regs with prevTs := 33700, qual := 9 } := by decide

/-- Vector Q4: TICK takes the last one; Q2: it stays at 0. -/
theorem test_tick_decays : (after (at8 0 3 1 true) (exec (.tick false 0) (at8 0 3 1 true))).regs.qual = 0 ∧
    (after (at8 0 3 0 true) (exec (.tick false 0) (at8 0 3 0 true))).regs.qual = 0 := by decide

/-- 42_control.md R133 with 41_quality.md R111: TICK and ACK of one cycle both take effect. -/
theorem test_tick_with_ack : (after (at8 7 3 50 true) (exec (.tick true 0) (at8 7 3 50 true))).regs =
    { (at8 7 3 49 false).regs with prevTs := 7 } := by decide

/-- Vector F9. -/
theorem test_ack_clears : (after (at8 7 0 50 true) (exec (.ack 0) (at8 7 0 50 true))).regs = (at8 7 0 50 false).regs := by
  decide

/-- Vector ID2. -/
theorem test_idle_keeps : (after (at8 7 3 50 true) (exec (.idle 0xABCD) (at8 7 3 50 true))).regs = (at8 7 3 50 true).regs := by
  decide

/-- Vector RS2: RESET dominates. -/
theorem test_reset_dominates :
    let u := after (at8 7 3 50 true) (step ((at8 7 3 50 true).withFetchWord 32 0xF000ABCD))
    u.regs = Regs.reset 8 ∧ u.observed.map (fun o => (o.evClass, o.evWidth, o.qual)) = [(EvClass.none, 0, 50)] ∧
      statusWord u.regs.cfg u.regs = 0x00020000 := by decide

/-- Vector RD5: a read in the cycle that writes the slot gives the old pair, and the new one stands from the next cycle. -/
theorem test_read_in_the_cycle_of_a_write :
    let u := after (at8 10000 2 50 false) (exec (.edge false false 14500) (at8 10000 2 50 false))
    u.observed.map (fun o => (o.rdCap, o.rdDif, o.evClass)) = [(1000, 999, EvClass.stored)] ∧
      slotRead u.regs 2 = ⟨2250, 1248⟩ := by decide

/-! ### Program text (30_encoding.md R69, R70) -/

theorem test_text_edge_and_tick : (stmtOf "EDGE 7000 | TICK ; P2, line 6".toList).map (fun t => t.lines.map Line.cw) =
    some [0x60001B58] := by decide
theorem test_text_ctl_and_read : (stmtOf "CTL 100, -200, 30, 400 | READ 3".toList).map (fun t => t.lines.map Line.sample) =
    some [⟨0, ⟨3, ⟨100, -200, 30, 400⟩⟩⟩] := by decide
theorem test_text_pulses : (stmtOf "PULSES 0xFDE8 : 1000, 65535".toList).map (fun t => t.lines.map Line.cw) =
    some [0x400001D0, 0x400001CF] := by decide
/-- P4 of 95_test_vectors.md, lines 3 to 13: the control words of its table from the widths written out; `×` is refused (log 9). -/
theorem test_text_p4_pulses :
    (stmtOf "PULSES 10000 : 2000, 2000, 2000, 2000, 2000, 2000, 2000, 2000, 2000, 2000, 2000".toList).map
      (fun t => t.lines.map Line.cw) = some [0x40002EE0, 0x400036B0, 0x40003E80, 0x40004650, 0x40004E20, 0x400055F0,
        0x40005DC0, 0x40006590, 0x40006D60, 0x40007530, 0x40007D00] ∧
    stmtOf "PULSES 10000 : 2000 ×11".toList = none := by decide
theorem test_text_idle_twice_is_idle : stmtOf "IDLE | IDLE".toList = stmtOf "IDLE".toList ∧
    stmtOf "TICK | TICK".toList = none := by decide
theorem test_text_refuses_reset_with_tick : stmtOf "RESET | TICK".toList = none := by decide

/-! ### Witnesses -/

theorem witness_ResetWordIgnoresItsOtherBits : (0x80000000 : CW).getLsbD 31 = true ∧ (0xF000ABCD : CW).getLsbD 31 = true ∧
    (0x80000000 : CW).extractLsb' 16 12 = 0 ∧ (0xF000ABCD : CW).extractLsb' 16 12 = 0 := by decide

theorem witness_SyncEdgeRestartsTheFrame : syncWidth (ruleWidth (at8 30000 5 50 true).regs 38001) := by decide

theorem witness_NoiseEdgeIsDropped : noiseWidth (ruleWidth (at8 30000 5 50 true).regs 31499) ∧
    noiseWidth (ruleWidth (at8 30000 5 50 true).regs 34501) ∧ noiseWidth (ruleWidth (at8 30000 5 50 true).regs 38000) := by
  decide

theorem witness_DataEdgeIsStored : (at8 30000 7 50 true).regs.sized ∧ dataWidth (ruleWidth (at8 30000 7 50 true).regs 31500) ∧
    dataWidth (ruleWidth (at8 30000 7 50 true).regs 34500) ∧
    (at8 30000 7 50 true).regs.idx.toNat < (at8 30000 7 50 true).regs.slots.length := by decide

theorem witness_DataEdgeBeyondTheLastSlotOverruns : dataWidth (ruleWidth (at8 30000 8 50 true).regs 34500) ∧
    (at8 30000 8 50 true).regs.slots.length ≤ (at8 30000 8 50 true).regs.idx.toNat := by decide

/-- The clauses of the statement in turn: no wrap, one wrap, equal timestamps, width 0, two elapsed counts 65536 apart. -/
theorem witness_WidthFormulaHasTheConsequencesOfRule83 : 0 ≤ 65535 ∧ 65535 ≤ 65535 ∧
    width (Config.cfg 8) 65534 65535 = 1 ∧ width (Config.cfg 8) 1 0 = 65534 ∧ width (Config.cfg 8) 0 0 = 65535 ∧
    width (Config.cfg 8) 65535 0 = 0 ∧ 0 % 65536 = 65536 % 65536 := by decide

theorem witness_FirstEdgeAfterResetIsMeasuredAgainstZero : Config.legalCount 1 ∧ Config.legalCount 255 := by decide

theorem witness_EventOutputsDescribeTheEdge : (Instr.reset true true true 5).performs .edge = false ∧
    (Instr.tick true 0).performs .edge = false ∧ (Instr.ack 0).performs .edge = false ∧
    (Instr.idle 0).performs .edge = false := by decide

theorem witness_QualityCounterFollowsRule110 : (Instr.edge true true 2000).performs .reset = false ∧
    (Instr.edge true true 2000).dataEdge (at8 0 0 200 false).regs = true ∧ (200 : U8).toNat ≤ 200 := by decide

theorem witness_IncrementCornerCases : dataWidth (ruleWidth (at8 0 8 190 false).regs 2000) ∧
    (at8 0 8 190 false).regs.qual.toNat ≤ 190 ∧ 191 ≤ (at8 0 0 191 false).regs.qual.toNat ∧
    (at8 0 0 200 false).regs.qual.toNat ≤ 200 ∧ dataWidth (ruleWidth (at8 0 0 200 false).regs 2000) ∧
    (Instr.edge false false 9000).dataEdge (at8 0 0 50 false).regs = false ∧
    (Instr.edge false false 9000).performs .reset = false ∧ (Instr.edge false false 9000).performs .tick = false := by decide

/-- The input record of a program line. -/
def inputOf (l : Line) : Input := l.sample.input

theorem witness_CounterIsMonotoneOverBurstsAndTicks : (at8 0 0 185 false).regs.qual.toNat ≤ 200 ∧
    along (fun s i => i.dataEdge s && !i.tick) (at8 0 7 185 false).regs
      [inputOf { edge := some 2000 }, inputOf { edge := some 4000 }] = true ∧
    along (fun s i => !i.rst && i.tick && !i.dataEdge s) (at8 0 0 1 false).regs
      [inputOf { tick := true }, inputOf { edge := some 9000, tick := true }] = true := by decide

theorem witness_FailsafeLatencyAndSignalPresence : (at8 0 0 0 false).regs.qual = 0 ∧
    (inputOf { edge := some 2000 }).dataEdge (at8 0 0 0 false).regs = true ∧ (inputOf { edge := some 2000 }).tick = false ∧
    along (fun s i => !i.rst && i.tick && !i.dataEdge s)
      (cycle (at8 0 0 0 false).regs.cfg (at8 0 0 0 false).regs (inputOf { edge := some 2000 })).1
      (List.replicate 2 (inputOf { tick := true })) = true := by decide

/-- A run of 11 data pulses from quality 0 that ends with `sig_ok`: the premise of the last clause can be met. -/
theorem witness_FailsafeLatencyAndSignalPresence_sigOk :
    sigOk (at8 0 0 0 false).regs.cfg (runRegs (at8 0 0 0 false).regs
      ((pulseTimes 0 (List.replicate 11 2000)).map fun t => inputOf { edge := some (BitVec.ofNat 16 t) })) = true := by decide

theorem witness_ReadPortGivesThePairAtTheStartOfTheCycle : (at8 0 0 0 false).regs.slots[7]? = some Slot.zero ∧
    (at8 0 0 0 false).regs.slots[(at8 0 0 0 false).ports.rdIdx.toNat]? = some ⟨1000, 999⟩ ∧
    (at8 0 0 0 false).regs.slots.length ≤ (8 : U8).toNat := by decide

theorem witness_GatingOutputsFollowTheCounter : (at8 0 0 0 true).regs.qual.toNat = 0 ∧ (at8 0 0 1 true).regs.qual.toNat ≠ 0 := by
  decide

theorem witness_MooreOutputsIgnoreTheOperation : (at8 0 0 0 false).regs.qual = 0 ∧
    dataWidth (ruleWidth (at8 0 0 0 false).regs 1500) := by decide

theorem witness_PreviousTimestampShowsOnlyInTheEventOutputs : (Instr.ack 0).performs .edge = false := by decide

theorem witness_FrameReadyIsSetByStoresAndClearedByAckAndReset : (at8 0 3 0 true).regs.sized ∧
    (Machine.State.resetFor 1).regs.sized := by decide

/-- The largest slot count, at the index below it. -/
theorem witness_largest_slot_count : (Machine.State.resetFor 255).regs.sized := by decide +kernel

theorem witness_EachFieldHasOnlyItsWriters : (Instr.edge true true 2000).performs .reset = false ∧
    slotRead (after (at8 0 2 0 true) (exec (.edge true true 2000) (at8 0 2 0 true))).regs 2 ≠
      slotRead (at8 0 2 0 true).regs 2 := by decide

theorem witness_IndexCountsThePulsesStored : (at8 0 7 0 true).regs.sized ∧
    (at8 0 7 0 true).regs.idx.toNat ≤ (at8 0 7 0 true).regs.slots.length ∧
    along (fun s i => !i.rst && !i.syncEdge s) (at8 0 7 0 true).regs
      [inputOf { edge := some 2000 }, inputOf { edge := some 4000 }] = true := by decide

theorem witness_FirstFourSlotsAreStableUntilTheNextFrame : (at8 0 4 0 true).regs.sized ∧
    4 ≤ (at8 0 4 0 true).regs.idx.toNat ∧
    along (fun s i => !i.rst && !i.syncEdge s) (at8 0 4 0 true).regs [inputOf { edge := some 2000 }] = true ∧
    along (fun s i => !i.rst && !i.dataEdge s) (runRegs (at8 0 4 0 true).regs [inputOf { edge := some 2000 }])
      [inputOf { edge := some 11000 }] = true := by decide

theorem witness_StreamWithoutSyncGapsOnlyOverruns :
    (at8 0 8 0 true).regs.idx.toNat = (at8 0 8 0 true).regs.slots.length ∧
    along (fun s i => !i.rst && !i.syncEdge s) (at8 0 8 0 true).regs
      [inputOf { edge := some 8000 }, inputOf { edge := some 9500 }] = true := by decide

theorem witness_ResetStateHasTheInvariant : Config.legalCount 1 ∧ Config.legalCount 8 ∧ Config.legalCount 255 := by decide

theorem witness_StepKeepsTheInvariant : (at8 0 2 200 true).Inv ∧
    isNext (step ((at8 0 2 200 true).withFetchWord 32 0x400005DC)) = true ∧
    ((at8 0 2 200 true).withFetchWord 32 0x400005DC).Inv := by decide

theorem witness_ReachedStatesHaveRule26 : Config.legalCount 8 ∧
    along (fun s i => !i.rst && !i.syncEdge s) (runRegs (Regs.reset 8) [inputOf { edge := some 10000 }])
      [inputOf { edge := some 13000 }] = true := by decide

theorem witness_EncodingADecodedWordGivesItBack : decodeTableWord 32 0x7000FFFF = some (.edge true true 0xFFFF) := by decide

theorem witness_MatchedRowsAreTheOperationsPerformed : (⟨.tick, 0xAFFF0000, 0x20000000⟩ : OpcodeRow) ∈ opcodeTable ∧
    decodeTableWord 32 0x60001B58 = some (.edge true false 7000) ∧ (0x00010000 : CW).extractLsb' 16 12 ≠ 0 := by decide

theorem witness_TimestampFieldIsTheOperandOfEdgeOnly : (0x4000FFFF : CW).extractLsb' 16 12 = 0 ∧
    (0x4000FFFF : CW).getLsbD 31 = false ∧ (0x4000FFFF : CW).getLsbD 30 = true ∧ (0x20000000 : CW).getLsbD 30 = false ∧
    (0x20000000 : CW).extractLsb' 16 16 = (0x2000FFFF : CW).extractLsb' 16 16 := by decide

theorem witness_ProgramLinesAreTheWellFormedTerms : Line.legal { reset := true, read := some 3 } = true ∧
    Line.legal { edge := some 7000, tick := true, ack := true } = true ∧ (Instr.tick true 0).wellFormed = true := by decide

theorem witness_PulsesDecodeToTheirStepsLessOneAtAWrap : (at8 65000 0 0 false).regs.prevTs.toNat = 65000 ∧
    ∀ w ∈ [1, 535, 65535], 1 ≤ w ∧ w ≤ 65535 := by decide

theorem witness_StepRunsTheDecodedTerm :
    ((at8 0 0 0 false).withFetchWord 32 0x400005DC).inputs = [⟨0x400005DC, Ports.quiet⟩] ∧
    decodeTableWord 32 0x400005DC = some (.edge false false 1500) := by decide

theorem witness_ReservedBitsAreRefused : (0x00010000 : CW).extractLsb' 16 12 ≠ 0 ∧ (0x08000000 : CW).extractLsb' 16 12 ≠ 0 ∧
    (0xF000FFFF : CW).extractLsb' 16 12 = 0 := by decide

theorem witness_NothingStopsButAReservedBit : (at8 0 0 0 false).inputs = [] := by decide

theorem witness_StepIsTheComposedCycle :
    ((at8 0 0 0 false).withFetchWord 32 0x70002710).nextSample.cw.extractLsb' 16 12 = 0 := by decide

theorem witness_RunObservesTheOutputsOfItsInputSequence :
    ((at8 0 0 0 false).withFetchWord 32 0x70002710).inputs = [⟨0x70002710, Ports.quiet⟩] ∧
    ∀ d ∈ [(⟨0x70002710, Ports.quiet⟩ : PortSample)], d.cw.extractLsb' 16 12 = 0 := by decide

theorem witness_ResetGivesEveryFieldItsResetValue :
    dataEdges (Regs.reset 8) [inputOf { tick := true }, inputOf { edge := some 9000 }] = 0 := by decide

end Sys2Proof.Tests
end

/-! ## A step and a run are the composed cycles (42_control.md R140, 00_scope.md R13)

Settles O45. The key fact is `step_eq_next_afterCycle`: the step, which runs the one operation its control word names,
does what the cycle of R140 does on the strobes of that word. The run follows by induction on the samples. -/

namespace Sys2Proof.Machine

/-! ### The cycle, by the strobes of its input record -/

/-- Without EDGE and TICK the counter keeps its value (41_quality.md R110), so only the mark can change. -/
theorem cycle_noEdge_noTick {s : Regs} {i : Input} (hr : i.rst = false) (he : i.edgeValid = false)
    (ht : i.tick = false) :
    (cycle s.cfg s i).1 = { s with frameReady := frameReadyNext false s.frameReady i.frameAck } := by
  simp [cycle_noEdge hr he, ht, qualNext_none]

theorem cycle_reset_outputs {cfg : Cfg} {s : Regs} {i : Input} (hr : i.rst = true) :
    (cycle cfg s i).2 = outputs cfg s ⟨i.rdIdx, i.ctlIn⟩ .none 0 := by
  simp [cycle, hr]

theorem cycle_edge_outputs {cfg : Cfg} {s : Regs} {i : Input} (hr : i.rst = false) (he : i.edgeValid = true) :
    (cycle cfg s i).2 =
      outputs cfg s ⟨i.rdIdx, i.ctlIn⟩ (edgeOp cfg s i.edgeTs).evClass (edgeOp cfg s i.edgeTs).evWidth := by
  simp [cycle, hr, he]

theorem cycle_noEdge_outputs {cfg : Cfg} {s : Regs} {i : Input} (hr : i.rst = false) (he : i.edgeValid = false) :
    (cycle cfg s i).2 = outputs cfg s ⟨i.rdIdx, i.ctlIn⟩ .none 0 := by
  simp [cycle, hr, he, EdgeResult.absent]

/-! ### The state after a composed cycle -/

/-- The state after the cycle of 42_control.md R140 on the sample `d`: its next `S`, its output record observed, its data
ports driven. -/
def State.afterCycle (s : State) (d : PortSample) : State where
  regs := (cycle s.regs.cfg s.regs d.input).1
  ports := d.ports
  inputs := s.inputs
  observed := (cycle s.regs.cfg s.regs d.input).2 :: s.observed

section AfterCycle

variable {s : State} {d : PortSample}

/-- With the sample's data ports driven, a commit with the cycle's event outputs and next `S` is the composed cycle. -/
theorem State.commit_eq_afterCycle {c : EvClass} {w : BitVec 16} {r : Regs} (hp : s.ports = d.ports)
    (ho : (cycle s.regs.cfg s.regs d.input).2 = outputs s.regs.cfg s.regs d.ports c w)
    (hr : (cycle s.regs.cfg s.regs d.input).1 = r) : s.commit c w r = s.afterCycle d := by
  simp only [State.commit, State.afterCycle, hp, ho, hr]

theorem exec_reset_eq_afterCycle (hp : s.ports = d.ports) (hr : d.input.rst = true) (e t a : Bool) (ts : Ts) :
    exec (.reset e t a ts) s = .next (s.afterCycle d) := by
  rw [exec_reset, State.commit_eq_afterCycle hp (cycle_reset_outputs hr) (cycle_reset hr)]

theorem exec_edge_eq_afterCycle (hp : s.ports = d.ports) (hr : d.input.rst = false) (he : d.input.edgeValid = true) :
    exec (.edge d.input.tick d.input.frameAck d.input.edgeTs) s = .next (s.afterCycle d) := by
  rw [exec_edge, State.commit_eq_afterCycle hp (cycle_edge_outputs hr he) (cycle_edge hr he)]

theorem exec_tick_eq_afterCycle (hp : s.ports = d.ports) (hr : d.input.rst = false) (he : d.input.edgeValid = false)
    (ht : d.input.tick = true) (ts : Ts) : exec (.tick d.input.frameAck ts) s = .next (s.afterCycle d) := by
  have hregs := cycle_noEdge (cfg := s.regs.cfg) (s := s.regs) hr he
  rw [ht] at hregs
  rw [exec_tick, State.commit_eq_afterCycle hp (cycle_noEdge_outputs hr he) hregs]

theorem exec_ack_eq_afterCycle (hp : s.ports = d.ports) (hr : d.input.rst = false) (he : d.input.edgeValid = false)
    (ht : d.input.tick = false) (ha : d.input.frameAck = true) (ts : Ts) :
    exec (.ack ts) s = .next (s.afterCycle d) := by
  have hregs := cycle_noEdge_noTick (s := s.regs) hr he ht
  rw [ha] at hregs
  rw [exec_ack, State.commit_eq_afterCycle hp (cycle_noEdge_outputs hr he) hregs]

theorem exec_idle_eq_afterCycle (hp : s.ports = d.ports) (hr : d.input.rst = false) (he : d.input.edgeValid = false)
    (ht : d.input.tick = false) (ha : d.input.frameAck = false) (ts : Ts) :
    exec (.idle ts) s = .next (s.afterCycle d) := by
  have hregs : (cycle s.regs.cfg s.regs d.input).1 = s.regs := by
    simp [cycle_noEdge_noTick hr he ht, ha, frameReadyNext]
  rw [exec_idle, State.commit_eq_afterCycle hp (cycle_noEdge_outputs hr he) hregs]

/-- The term a control word's strobes name does what R140 composes of those strobes. -/
theorem exec_decodeStrobes (hp : s.ports = d.ports) :
    exec (decodeStrobes d.cw) s = .next (s.afterCycle d) := by
  unfold decodeStrobes
  split
  case isTrue hr => exact exec_reset_eq_afterCycle hp hr ..
  case isFalse hr =>
    rw [Bool.not_eq_true] at hr
    split
    case isTrue he => exact exec_edge_eq_afterCycle hp hr he
    case isFalse he =>
      rw [Bool.not_eq_true] at he
      split
      case isTrue ht => exact exec_tick_eq_afterCycle hp hr he ht _
      case isFalse ht =>
        rw [Bool.not_eq_true] at ht
        split
        case isTrue ha => exact exec_ack_eq_afterCycle hp hr he ht ha _
        case isFalse ha => exact exec_idle_eq_afterCycle hp hr he ht (Bool.eq_false_of_not_eq_true ha) _

end AfterCycle

/-! ### The step and the run -/

/-- A step on a control word without reserved bits is the composed cycle on its sample (42_control.md R140). -/
theorem step_eq_next_afterCycle {s : State} (h : CW.reserved s.nextSample.cw = 0) :
    step s = .next (s.sampled.afterCycle s.nextSample) := by
  have hd : decode s.nextSample.cw = .ok (decodeStrobes s.nextSample.cw) := decode_ok_iff.mpr ⟨h, rfl⟩
  simp only [step, hd]
  exact exec_decodeStrobes s.sampled_ports

theorem core_run_succ_of_step {s u : State} (h : step s = .next u) (k : Nat) :
    Host.Core.run Sys2Proof.core (k + 1) s = Host.Core.run Sys2Proof.core k u := by
  have hstep : Sys2Proof.core.step s = .next u := h
  simp only [Host.Core.run, hstep]

/-- Settles O45, by induction on the samples to come: the first step is the composed cycle of the first sample, and the
rest of the run starts from its state. -/
theorem runObservesTheOutputsOfItsInputSequence : Obligations.RunObservesTheOutputsOfItsInputSequence := by
  unfold Obligations.RunObservesTheOutputsOfItsInputSequence
  intro s ds hin hres
  induction ds generalizing s with
  | nil => exact ⟨s, rfl, rfl, hin, rfl⟩
  | cons d ds ih =>
    obtain ⟨hd, hds⟩ := List.forall_mem_cons.mp hres
    have hnext : s.nextSample = d := State.nextSample_cons d hin
    have hstep : step s = .next (s.sampled.afterCycle d) := by
      rw [← hnext] at hd ⊢
      exact step_eq_next_afterCycle hd
    have htail : (s.sampled.afterCycle d).inputs = ds := by simp [State.afterCycle, hin]
    obtain ⟨u, hrun, hregs, hinputs, hobs⟩ := ih (s.sampled.afterCycle d) htail hds
    refine ⟨u, (core_run_succ_of_step hstep ds.length).trans hrun, hregs, hinputs, ?_⟩
    simp [hobs, State.afterCycle, runOutputs]

end Sys2Proof.Machine

/-! ## The state: the writers of each field and the invariant (10_state.md)

What EDGE and a composed cycle do to one field is said once, in the two layers of lemmas that come first. O32 and O33 then
share one fact, `cycle_inv`, and the runs of O27, O28 and O33 are inductions on the lemma of their field. -/

namespace Sys2Proof.Machine

/-! ### What EDGE does to each field -/

section EdgeFields

variable {s : Regs} {ts : Ts}

/-- Every edge is accepted, whatever its width (40_decoder.md R81). -/
theorem edgeOp_prevTs (s : Regs) (ts : Ts) : (edgeOp s.cfg s ts).regs.prevTs = ts := by
  rcases edgeOp_cases s ts with h | h | ⟨h, hi⟩ | ⟨h, hi⟩
  · rw [edgeOp_sync h]
  · rw [edgeOp_noise h]
  · rw [edgeOp_stored h hi]
  · rw [edgeOp_overrun h hi]

theorem edgeOp_evClass_eq_stored_iff (s : Regs) (ts : Ts) : (edgeOp s.cfg s ts).evClass = .stored ↔
    dataWidth (ruleWidth s ts) ∧ s.idx.toNat < s.slots.length := by
  rcases edgeOp_cases s ts with h | h | ⟨h, hi⟩ | ⟨h, hi⟩
  · simp only [edgeOp_sync h, reduceCtorEq, false_iff]; omega
  · simp only [edgeOp_noise h, reduceCtorEq, false_iff]; omega
  · exact iff_of_true (by rw [edgeOp_stored h hi]) ⟨h, hi⟩
  · simp [edgeOp_overrun h hi, hi]

/-- The index below a legal `N` advances without leaving its field (10_state.md R22). -/
theorem idx_succ_toNat (hs : s.sized) (hi : s.idx.toNat < s.slots.length) :
    (BitVec.ofNat 8 (s.idx.toNat + 1)).toNat = s.idx.toNat + 1 := by
  rw [BitVec.toNat_ofNat]
  exact Nat.mod_eq_of_lt (by omega)

/-- But for a sync gap EDGE advances the index by the pulse it stores (40_decoder.md R86, R88, R91). -/
theorem edgeOp_idx_of_not_sync (hs : s.sized) (hw : ¬ syncWidth (ruleWidth s ts)) :
    (edgeOp s.cfg s ts).regs.idx.toNat = s.idx.toNat + if (edgeOp s.cfg s ts).evClass = .stored then 1 else 0 := by
  rcases edgeOp_cases s ts with h | h | ⟨h, hi⟩ | ⟨h, hi⟩
  · exact absurd h hw
  · simp [edgeOp_noise h]
  · simp only [edgeOp_stored h hi, if_true, idx_succ_toNat hs hi]
  · simp [edgeOp_overrun h hi]

theorem edgeOp_idx_le (hs : s.sized) (hle : s.idx.toNat ≤ s.slots.length) :
    (edgeOp s.cfg s ts).regs.idx.toNat ≤ s.slots.length := by
  rcases edgeOp_cases s ts with h | h | ⟨h, hi⟩ | ⟨h, hi⟩
  · simp [edgeOp_sync h]
  · simpa [edgeOp_noise h] using hle
  · simp only [edgeOp_stored h hi, idx_succ_toNat hs hi]; omega
  · simpa [edgeOp_overrun h hi] using hle

/-- EDGE asks for the mark where it stores a pulse and leaves the index at 4 or more (40_decoder.md R90). -/
theorem edgeOp_frSet_iff (hs : s.sized) : (edgeOp s.cfg s ts).frSet = true ↔
    dataWidth (ruleWidth s ts) ∧ s.idx.toNat < s.slots.length ∧ 4 ≤ (edgeOp s.cfg s ts).regs.idx.toNat := by
  rcases edgeOp_cases s ts with h | h | ⟨h, hi⟩ | ⟨h, hi⟩
  · simp only [edgeOp_sync h, Bool.false_eq_true, false_iff]; omega
  · simp only [edgeOp_noise h, Bool.false_eq_true, false_iff]; omega
  · simp only [edgeOp_stored h hi, idx_succ_toNat hs hi, decide_eq_true_eq]
    exact ⟨fun h4 => ⟨h, hi, h4⟩, fun ⟨_, _, h4⟩ => h4⟩
  · simp only [edgeOp_overrun h hi, Bool.false_eq_true, false_iff]; omega

theorem slotRead_congr {r : Regs} (h : r.slots = s.slots) (j : Nat) : slotRead r j = slotRead s j := by
  simp only [slotRead, h]

/-- EDGE changes no slot but the one its stored pulse goes to (20_memory.md R41, R42). -/
theorem edgeOp_slotRead_ne {j : Nat} (hj : slotRead (edgeOp s.cfg s ts).regs j ≠ slotRead s j) :
    dataWidth (ruleWidth s ts) ∧ j = s.idx.toNat ∧ j < s.slots.length := by
  rcases edgeOp_cases s ts with h | h | ⟨h, hi⟩ | ⟨h, hi⟩
  · exact absurd (slotRead_congr (by rw [edgeOp_sync h]) j) hj
  · exact absurd (slotRead_congr (by rw [edgeOp_noise h]) j) hj
  · by_cases hji : j = s.idx.toNat
    · exact ⟨h, hji, hji ▸ hi⟩
    · rw [edgeOp_stored h hi] at hj
      exact absurd ((slotRead_set s _ j _ hi).trans (if_neg hji)) hj
  · exact absurd (slotRead_congr (by rw [edgeOp_overrun h hi]) j) hj

/-- The half width of a data pulse fits `cap`, from 750 to 2250 (40_decoder.md R88). -/
theorem halfWidth_toInt {w : Nat} (h : dataWidth w) : (BitVec.ofNat 16 (w / 2)).toInt = (w / 2 : Nat) := by
  rw [BitVec.toInt_ofNat', Int.bmod_def]
  omega

/-- EDGE leaves every slot in its range (10_state.md R26; 40_decoder.md R88, R89). -/
theorem edgeOp_slots_inRange (hr : ∀ x ∈ s.slots, capInRange x.cap ∧ difInRange x.dif) :
    ∀ x ∈ (edgeOp s.cfg s ts).regs.slots, capInRange x.cap ∧ difInRange x.dif := by
  rcases edgeOp_cases s ts with h | h | ⟨h, hi⟩ | ⟨h, hi⟩
  · simpa [edgeOp_sync h] using hr
  · simpa [edgeOp_noise h] using hr
  · rw [edgeOp_stored h hi]
    intro x hx
    rcases List.mem_or_eq_of_mem_set hx with hx | rfl
    · exact hr x hx
    · have hhalf : 750 ≤ ((ruleWidth s ts / 2 : Nat) : Int) ∧ ((ruleWidth s ts / 2 : Nat) : Int) ≤ 2250 := by omega
      have hold : capInRange (slotRead s s.idx.toNat).cap := (hr _ (slotRead_mem hi)).1
      refine ⟨.inr ?_, difField_inRange _ hhalf (hold.imp_left fun h0 => by rw [h0]; rfl)⟩
      rw [halfWidth_toInt h]
      exact hhalf
  · simpa [edgeOp_overrun h hi] using hr

end EdgeFields

/-! ### What a composed cycle does to each field -/

section CycleFields

variable {s : Regs} {i : Input}

/-- `prev_ts` has two writers, RESET and EDGE (10_state.md R20, R21). -/
theorem cycle_prevTs (s : Regs) (i : Input) : (cycle s.cfg s i).1.prevTs =
    if i.rst then 0 else if i.edgeValid then i.edgeTs else s.prevTs := by
  cases hr : i.rst
  · cases he : i.edgeValid
    · simp [cycle_noEdge hr he]
    · simp [cycle_edge hr he, edgeOp_prevTs]
  · simp [cycle_reset hr]

/-- The counter after a cycle without RESET (41_quality.md R110). -/
theorem cycle_qual (hr : i.rst = false) : (cycle s.cfg s i).1.qual.toNat =
    (if i.dataEdge s then min (s.qual.toNat + 10) 200 else s.qual.toNat) - (if i.tick then 1 else 0) := by
  cases he : i.edgeValid
  · rw [cycle_noEdge hr he, qualNext_toNat, qualNext_eq]
    simp [Input.dataEdge, he]
  · rw [cycle_edge hr he, qualNext_toNat, qualNext_eq, edgeOp_qinc]
    simp [Input.dataEdge, hr, he]

theorem not_reset_not_syncEdge_iff : (!i.rst && !i.syncEdge s) = true ↔
    i.rst = false ∧ (i.edgeValid = true → ¬ syncWidth (ruleWidth s i.edgeTs)) := by
  cases hr : i.rst <;> simp [Input.syncEdge, hr, imp_iff_not_or]

/-- In a cycle without RESET and sync gap the index grows by the pulse stored, as `ev_class` shows it (10_state.md R22). -/
theorem cycle_idx (hs : s.sized) (hr : i.rst = false)
    (hw : i.edgeValid = true → ¬ syncWidth (ruleWidth s i.edgeTs)) :
    (cycle s.cfg s i).1.idx.toNat = s.idx.toNat + if (cycle s.cfg s i).2.evClass = .stored then 1 else 0 := by
  rw [(cycle_event hr).1]
  cases he : i.edgeValid
  · simp [cycle_noEdge hr he]
  · simpa [cycle_edge hr he] using edgeOp_idx_of_not_sync hs (hw he)

theorem cycle_idx_le (hs : s.sized) (hle : s.idx.toNat ≤ s.slots.length) (i : Input) :
    (cycle s.cfg s i).1.idx.toNat ≤ s.slots.length := by
  cases hr : i.rst
  · cases he : i.edgeValid
    · simpa [cycle_noEdge hr he] using hle
    · simpa [cycle_edge hr he] using edgeOp_idx_le hs hle
  · simp [cycle_reset hr]

/-- In a cycle without RESET and sync gap the index does not fall, and the slots that stay at or above it keep their pairs
(10_state.md R26). -/
theorem cycle_unwritten (hs : s.sized) (hr : i.rst = false)
    (hw : i.edgeValid = true → ¬ syncWidth (ruleWidth s i.edgeTs)) {j : Nat}
    (hj : (cycle s.cfg s i).1.idx.toNat ≤ j) :
    s.idx.toNat ≤ j ∧ slotRead (cycle s.cfg s i).1 j = slotRead s j := by
  have hidx := cycle_idx hs hr hw
  refine ⟨by omega, ?_⟩
  cases he : i.edgeValid
  · exact slotRead_congr (by rw [cycle_noEdge hr he]) j
  · rw [slotRead_congr (s := (edgeOp s.cfg s i.edgeTs).regs) (by rw [cycle_edge hr he]) j]
    by_contra hne
    obtain ⟨hdata, hji, hlt⟩ := edgeOp_slotRead_ne hne
    have hstored := (edgeOp_evClass_eq_stored_iff s i.edgeTs).mpr ⟨hdata, hji ▸ hlt⟩
    rw [(cycle_event hr).1, he, if_pos rfl, if_pos hstored] at hidx
    omega

end CycleFields

/-! ### The invariant -/

/-- The reset values are in range for every slot count (10_state.md R26, R30). -/
theorem Regs.reset_inv (n : Nat) : (Regs.reset n).Inv := by
  refine ⟨Nat.zero_le _, Nat.zero_le _, fun x hx => ?_⟩
  rw [List.eq_of_mem_replicate hx]
  decide

theorem Regs.reset_sized {n : Nat} (h : Config.legalCount n) : (Regs.reset n).sized := by
  simpa [Regs.sized] using h

theorem cycle_sized {s : Regs} (hs : s.sized) (i : Input) : (cycle s.cfg s i).1.sized := by
  rw [Regs.sized, cycle_length]
  exact hs

/-- Every cycle keeps the clauses of 10_state.md R26, for a legal slot count. -/
theorem cycle_inv {s : Regs} (hs : s.sized) (hinv : s.Inv) (i : Input) : (cycle s.cfg s i).1.Inv := by
  obtain ⟨hidx, hqual, hslots⟩ := hinv
  cases hr : i.rst
  case true =>
    rw [cycle_reset hr]
    exact Regs.reset_inv _
  case false =>
    refine ⟨by rw [cycle_length]; exact cycle_idx_le hs hidx i, ?_, ?_⟩
    · rw [cycle_qual hr]
      split <;> omega
    · cases he : i.edgeValid
      · rw [cycle_noEdge hr he]
        exact hslots
      · rw [cycle_edge hr he]
        exact edgeOp_slots_inRange hslots

/-- A step that ends in a next state is the composed cycle of its sample (42_control.md R140). -/
theorem eq_afterCycle_of_step {s u : State} (h : step s = .next u) : u = s.sampled.afterCycle s.nextSample := by
  have hres : CW.reserved s.nextSample.cw = 0 := by
    by_contra hne
    simp [step, decode_error_iff.mpr ⟨hne, rfl⟩] at h
  rw [step_eq_next_afterCycle hres] at h
  exact (Host.Outcome.next.inj h).symm

/-- Settles O32: a step is a composed cycle, and `cycle_inv` says that every cycle keeps the invariant. -/
theorem stepKeepsTheInvariant : Obligations.StepKeepsTheInvariant := by
  unfold Obligations.StepKeepsTheInvariant
  rintro s u ⟨hs, hinv⟩ hstep
  rw [eq_afterCycle_of_step hstep]
  exact ⟨cycle_sized hs _, cycle_inv hs hinv _⟩

/-! ### The writers of each field -/

/-- A set wins over an acknowledgement, and an acknowledgement over a mark that stood (42_control.md R133). -/
theorem frameReadyNext_eq_true_iff (frSet frameReady ack : Bool) :
    frameReadyNext frSet frameReady ack = true ↔ frSet = true ∨ (frameReady = true ∧ ack = false) := by
  simp [frameReadyNext]

/-- Settles O25, by the operation: only EDGE asks for the mark (`edgeOp_frSet_iff`), and in every other cycle it stands
exactly where it stood and nothing cleared it. -/
theorem frameReadyIsSetByStoresAndClearedByAckAndReset :
    Obligations.FrameReadyIsSetByStoresAndClearedByAckAndReset := by
  unfold Obligations.FrameReadyIsSetByStoresAndClearedByAckAndReset
  intro i s hs
  cases i with
  | reset e t a ts => exact ⟨_, exec_reset e t a ts s, by simp [Instr.dataEdge, Instr.performs]⟩
  | edge t a ts =>
    refine ⟨_, exec_edge t a ts s, ?_⟩
    simp [frameReadyNext_eq_true_iff, edgeOp_frSet_iff hs, Instr.dataEdge, Instr.performs]
  | tick a ts => exact ⟨_, exec_tick a ts s, by simp [frameReadyNext_eq_true_iff, Instr.dataEdge, Instr.performs]⟩
  | ack ts => exact ⟨_, exec_ack ts s, by simp [frameReadyNext_eq_true_iff, Instr.dataEdge, Instr.performs]⟩
  | idle ts => exact ⟨_, exec_idle ts s, by simp [Instr.dataEdge, Instr.performs]⟩

/-- Settles O26, by the operation: EDGE may write every field, so for it only the slot clause says something
(`edgeOp_slotRead_ne`); the other operations write the mark and the counter alone. -/
theorem eachFieldHasOnlyItsWriters : Obligations.EachFieldHasOnlyItsWriters := by
  unfold Obligations.EachFieldHasOnlyItsWriters
  intro i s hreset
  cases i with
  | reset e t a ts => simp [Instr.performs] at hreset
  | edge t a ts =>
    refine ⟨_, exec_edge t a ts s, edgeOp_length _ _ _, fun _ => rfl, fun _ => rfl, fun j hj => ?_, fun _ => .inl rfl,
      fun _ => .inl rfl⟩
    obtain ⟨hdata, hji, hlt⟩ := edgeOp_slotRead_ne (s := s.regs) (ts := ts) (j := j) hj
    exact ⟨decide_eq_true hdata, hji, hlt⟩
  | tick a ts =>
    refine ⟨_, exec_tick a ts s, rfl, absurd rfl, absurd rfl, fun j => absurd rfl, fun hfr => .inr ?_, fun _ => .inr rfl⟩
    cases a
    · simp [frameReadyNext] at hfr
    · rfl
  | ack ts =>
    exact ⟨_, exec_ack ts s, rfl, absurd rfl, absurd rfl, fun j => absurd rfl, fun _ => .inr rfl, absurd rfl⟩
  | idle ts =>
    exact ⟨_, exec_idle ts s, rfl, absurd rfl, absurd rfl, fun j => absurd rfl, absurd rfl, absurd rfl⟩

/-! ### Runs -/

/-- Settles O27, by induction on the inputs with the writers of `prev_ts` (`cycle_prevTs`). -/
theorem previousTimestampIsThatOfTheLastEdge : Obligations.PreviousTimestampIsThatOfTheLastEdge := by
  unfold Obligations.PreviousTimestampIsThatOfTheLastEdge
  intro s is
  induction is generalizing s with
  | nil => rfl
  | cons i is ih =>
    rw [runRegs, ih, cycle_prevTs]
    rfl

/-- Settles O28, by induction on the inputs: `cycle_idx` counts the first cycle's pulse, and the slot count is that of the
start (`cycle_length`). -/
theorem indexCountsThePulsesStored : Obligations.IndexCountsThePulsesStored := by
  unfold Obligations.IndexCountsThePulsesStored
  intro s is hs hle halong
  induction is generalizing s with
  | nil => exact ⟨rfl, hle⟩
  | cons i is ih =>
    obtain ⟨hnow, hrest⟩ := (Bool.and_eq_true _ _).mp halong
    obtain ⟨hr, hw⟩ := not_reset_not_syncEdge_iff.mp hnow
    have hlen := cycle_length s i
    obtain ⟨hcount, hbound⟩ := ih _ (cycle_sized hs i) (hlen ▸ cycle_idx_le hs hle i) hrest
    refine ⟨?_, hlen ▸ hbound⟩
    rw [runRegs, hcount, cycle_idx hs hr hw, runOutputs, List.countP_cons]
    simp only [decide_eq_true_eq]
    omega

/-- What every cycle keeps holds after every run. -/
theorem runRegs_invariant {Q : Regs → Prop} (hstep : ∀ s i, Q s → Q (cycle s.cfg s i).1) {s : Regs} (is : List Input)
    (hq : Q s) : Q (runRegs s is) := by
  induction is generalizing s with
  | nil => exact hq
  | cons i is ih => exact ih (hstep s i hq)

theorem runRegs_length (s : Regs) (is : List Input) : (runRegs s is).slots.length = s.slots.length :=
  runRegs_invariant (Q := fun r => r.slots.length = s.slots.length) (fun r i h => (cycle_length r i).trans h) is rfl

/-- A legal slot count and 10_state.md R26 hold after every run from a state that has them. -/
theorem runRegs_sized_inv {s : Regs} (h : s.sized ∧ s.Inv) (is : List Input) :
    (runRegs s is).sized ∧ (runRegs s is).Inv :=
  runRegs_invariant (Q := fun r => r.sized ∧ r.Inv) (fun _ i h => ⟨cycle_sized h.1 i, cycle_inv h.1 h.2 i⟩) is h

/-- The slots of `r` at or above its index hold what they held in `s` (the last clause of 10_state.md R26). -/
def UnwrittenSince (s r : Regs) : Prop := ∀ j, r.idx.toNat ≤ j → slotRead r j = slotRead s j

/-- Without RESET and sync gap a run leaves the slots at or above its last index as they were. -/
theorem runRegs_unwrittenSince {s : Regs} (hs : s.sized) {is : List Input}
    (halong : along (fun s i => !i.rst && !i.syncEdge s) s is = true) : UnwrittenSince s (runRegs s is) := by
  refine (runRegs_induction (Q := fun r => r.sized ∧ UnwrittenSince s r) ?_ s is ⟨hs, fun _ _ => rfl⟩ halong).2
  intro r i ⟨hr, hun⟩ hnow
  obtain ⟨hrst, hw⟩ := not_reset_not_syncEdge_iff.mp hnow
  refine ⟨cycle_sized hr i, fun j hj => ?_⟩
  obtain ⟨hle, hkeep⟩ := cycle_unwritten hr hrst hw hj
  exact hkeep.trans (hun j hle)

/-- Settles O33: the reset state has R26, every run keeps its first clauses (`runRegs_sized_inv`), and the run since the
last sync gap its last one (`runRegs_unwrittenSince`). -/
theorem reachedStatesHaveRule26 : Obligations.ReachedStatesHaveRule26 := by
  unfold Obligations.ReachedStatesHaveRule26
  intro n is js hn halong
  have hreset : (Regs.reset n).sized ∧ (Regs.reset n).Inv := ⟨Regs.reset_sized hn, Regs.reset_inv n⟩
  refine ⟨by simp [runRegs_length], (runRegs_sized_inv hreset _).2, ?_⟩
  rw [runRegs_append]
  exact runRegs_unwrittenSince (runRegs_sized_inv hreset is).1 halong

/-! ### RESET and the previous timestamp's visibility -/

/-- Failsafe stands over every run without a data pulse: from 0 the counter stays at 0 (41_quality.md R110, R115). -/
theorem failsafe_runRegs_of_dataEdges_eq_zero {s : Regs} (hq : s.qual.toNat = 0) {is : List Input}
    (hd : dataEdges s is = 0) : failsafe (runRegs s is) = true := by
  induction is generalizing s with
  | nil => exact (failsafe_iff s).mpr hq
  | cons i is ih =>
    obtain ⟨hnow, hrest⟩ := Nat.add_eq_zero_iff.mp hd
    refine ih ?_ hrest
    cases hr : i.rst
    · have hno : i.dataEdge s = false := by simpa using hnow
      simp [cycle_qual hr, hno, hq]
    · simp [cycle_reset hr]

/-- Settles O1: RESET's cycle answers the reset state (`exec_reset`), and there the counter is 0. -/
theorem resetGivesEveryFieldItsResetValue : Obligations.ResetGivesEveryFieldItsResetValue := by
  unfold Obligations.ResetGivesEveryFieldItsResetValue
  intro e t a ts s
  exact ⟨_, exec_reset e t a ts s, rfl, rfl, rfl, rfl, rfl, ⟨rfl, rfl, _, rfl, rfl, rfl⟩,
    fun is hd => failsafe_runRegs_of_dataEdges_eq_zero rfl hd⟩

/-- Settles O3: the boot word has no reserved bit and sets `RST`, so its step is the cycle that resets, and the slot array at
power-up has the hardware's length. -/
theorem resetCyclePutsPowerUpIntoTheResetState : Obligations.ResetCyclePutsPowerUpIntoTheResetState := by
  unfold Obligations.ResetCyclePutsPowerUpIntoTheResetState
  have hres : CW.reserved (tableCW 32 0x80000000) = 0 := by decide
  have hrst : CW.rst (tableCW 32 0x80000000) = true := by decide
  refine ⟨_, step_eq_next_afterCycle hres, ?_, rfl, rfl⟩
  have hlen : State.powerUp.regs.slots.length = Config.ppmNumInputs := by simp [State.powerUp]
  calc (cycle State.powerUp.regs.cfg State.powerUp.regs (PortSample.input ⟨tableCW 32 0x80000000, Ports.quiet⟩)).1
      = Regs.reset State.powerUp.regs.slots.length := cycle_reset hrst
    _ = State.reset.regs := by rw [hlen]; rfl

/-- Every operation ends in a next state, and without EDGE its event outputs are NONE and 0 (40_decoder.md R92). -/
theorem exec_shape_event (i : Instr) (s : State) :
    ∃ c w r, exec i s = .next (s.commit c w r) ∧ (i.performs .edge = false → c = .none ∧ w = 0) := by
  cases i with
  | reset e t a ts => exact ⟨_, _, _, exec_reset e t a ts s, fun _ => ⟨rfl, rfl⟩⟩
  | edge t a ts => exact ⟨_, _, _, exec_edge t a ts s, fun h => by simp [Instr.performs] at h⟩
  | tick a ts => exact ⟨_, _, _, exec_tick a ts s, fun _ => ⟨rfl, rfl⟩⟩
  | ack ts => exact ⟨_, _, _, exec_ack ts s, fun _ => ⟨rfl, rfl⟩⟩
  | idle ts => exact ⟨_, _, _, exec_idle ts s, fun _ => ⟨rfl, rfl⟩⟩

/-- No output but the event outputs reads `prev_ts` (10_state.md R33). -/
theorem outputs_prevTs (cfg : Cfg) (s : Regs) (ts : Ts) (p : Ports) (c : EvClass) (w : BitVec 16) :
    outputs cfg { s with prevTs := ts } p c w = outputs cfg s p c w := rfl

/-- Settles O24: both cycles commit, and their records can differ in the event outputs only (`outputs_prevTs`), which
without EDGE are constant. -/
theorem previousTimestampShowsOnlyInTheEventOutputs : Obligations.PreviousTimestampShowsOnlyInTheEventOutputs := by
  unfold Obligations.PreviousTimestampShowsOnlyInTheEventOutputs
  intro i s p
  obtain ⟨c, w, r, hu, hnone⟩ := exec_shape_event i s
  obtain ⟨c', w', r', hv, hnone'⟩ := exec_shape_event i { s with regs := { s.regs with prevTs := p } }
  refine ⟨_, _, _, outputs s.regs.cfg s.regs s.ports c' w', hu, hv, rfl, ?_, rfl, fun hedge => ?_⟩
  · rw [State.commit_observed, outputs_prevTs]
  · obtain ⟨rfl, rfl⟩ := hnone hedge
    obtain ⟨rfl, rfl⟩ := hnone' hedge
    rfl

/-- Settles O31: the reset values meet every clause, and the hardware's slot count is legal. -/
theorem resetStateHasTheInvariant : Obligations.ResetStateHasTheInvariant := by
  unfold Obligations.ResetStateHasTheInvariant
  have hlegal : ∀ n, Config.legalCount n → (State.resetFor n).Inv :=
    fun n hn => ⟨Regs.reset_sized hn, Regs.reset_inv n⟩
  exact ⟨hlegal _ ppmNumInputs_legal, hlegal⟩

end Sys2Proof.Machine

/-! ## The control word: decoder, encoder, table and program lines (30_encoding.md)

`decode_eq_ok_iff` says once that the decoder and the encoder are inverse to each other, and `performs_decodeStrobes`
which operations a word's strobes ask for. The statements about `step` go through the composed cycle on a presented
sample (`step_present`, `step_present_refused`). -/

namespace Sys2Proof

/-! ### Decoder and encoder -/

theorem decodeStrobes_packCW (r e t a : Bool) (ts : Ts) : decodeStrobes (packCW r e t a ts) =
    if r then .reset e t a ts else if e then .edge t a ts else if t then .tick a ts else if a then .ack ts
    else .idle ts := by
  simp only [decodeStrobes, packCW_rst, packCW_edge, packCW_tick, packCW_ack, packCW_ts]

theorem decode_packCW (r e t a : Bool) (ts : Ts) :
    decode (packCW r e t a ts) = .ok (decodeStrobes (packCW r e t a ts)) :=
  decode_ok_iff.mpr ⟨packCW_reserved r e t a ts, rfl⟩

/-- The decoder gives back every term (30_encoding.md R62, R63). -/
theorem decode_encode (i : Instr) : decode (encode i) = .ok i := by
  cases i <;> simp [encode, decode_packCW, decodeStrobes_packCW]

/-- The encoder writes back each field that the strobes' term carries, reserved bits 0. -/
theorem encode_decodeStrobes (cw : CW) :
    encode (decodeStrobes cw) = packCW (CW.rst cw) (CW.edge cw) (CW.tick cw) (CW.ack cw) (CW.ts cw) := by
  unfold decodeStrobes
  split
  case isTrue hr => simp only [encode, hr]
  case isFalse hr =>
    split
    case isTrue he => simp only [encode, hr, he]
    case isFalse he =>
      split
      case isTrue ht => simp only [encode, hr, he, ht]
      case isFalse ht => split <;> simp only [encode, *]

/-- Decoder and encoder are inverse to each other: a word is accepted as a term exactly where it is the term's word. -/
theorem decode_eq_ok_iff {cw : CW} {i : Instr} : decode cw = .ok i ↔ encode i = cw := by
  constructor
  · intro h
    obtain ⟨hres, rfl⟩ := decode_ok_iff.mp h
    rw [encode_decodeStrobes, packCW_fields hres]
  · rintro rfl
    exact decode_encode i

/-- A control word is the table word of its own number. -/
theorem tableCW_toNat (cw : CW) : tableCW 32 cw.toNat = cw := by
  rw [tableCW, Nat.mod_eq_of_lt cw.isLt, BitVec.ofNat_toNat, BitVec.setWidth_eq]

theorem decodeTableWord_eq_some_iff {nbits w : Nat} {i : Instr} :
    decodeTableWord nbits w = some i ↔ decode (tableCW nbits w) = .ok i := by
  unfold decodeTableWord
  split <;> simp_all

/-- Settles O34: `decode_encode`, and a word of the table is the word itself (`tableCW_toNat`). -/
theorem decodingAnEncodedTermGivesItBack : Obligations.DecodingAnEncodedTermGivesItBack := by
  unfold Obligations.DecodingAnEncodedTermGivesItBack
  intro i
  refine ⟨decode_encode i, decodeTableWord_eq_some_iff.mpr ?_⟩
  rw [tableCW_toNat]
  exact decode_encode i

/-- Settles O35: one direction of `decode_eq_ok_iff`. -/
theorem encodingADecodedWordGivesItBack : Obligations.EncodingADecodedWordGivesItBack := by
  unfold Obligations.EncodingADecodedWordGivesItBack
  exact fun _ _ h => decode_eq_ok_iff.mp h

/-- Settles O37: each of the words is the encoding of its term. -/
theorem sampleWordsDecode : Obligations.SampleWordsDecode := by
  unfold Obligations.SampleWordsDecode
  simp only [decode_eq_ok_iff]
  decide

/-! ### The operations that a word's strobes ask for -/

/-- The operations that strobes ask for: RESET alone, else every strobe set, else IDLE (30_encoding.md R63;
42_control.md R131). -/
def Op.askedBy (rst edge tick ack : Bool) : Op → Bool
  | .reset => rst
  | .edge => !rst && edge
  | .tick => !rst && tick
  | .ack => !rst && ack
  | .idle => !rst && !edge && !tick && !ack

/-- The term that a word's strobes name performs exactly what they ask for. -/
theorem performs_decodeStrobes (cw : CW) (op : Op) : (decodeStrobes cw).performs op =
    op.askedBy (CW.rst cw) (CW.edge cw) (CW.tick cw) (CW.ack cw) := by
  unfold decodeStrobes
  generalize CW.rst cw = r, CW.edge cw = e, CW.tick cw = t, CW.ack cw = a
  split
  case isTrue hr => cases op <;> simp [Instr.performs, Op.askedBy, hr]
  case isFalse hr =>
    split
    case isTrue he => cases op <;> simp [Instr.performs, Op.askedBy, hr, he]
    case isFalse he =>
      split
      case isTrue ht => cases op <;> simp [Instr.performs, Op.askedBy, hr, he, ht]
      case isFalse ht => split <;> cases op <;> simp [Instr.performs, Op.askedBy, *]

/-! ### The rows of the table -/

/-- A word is `v`, which has no reserved bit, exactly where its fields are those of `v`. -/
theorem cw_eq_iff {x v : CW} (hv : CW.reserved v = 0) : x = v ↔ CW.reserved x = 0 ∧ CW.rst x = CW.rst v ∧
    CW.edge x = CW.edge v ∧ CW.tick x = CW.tick v ∧ CW.ack x = CW.ack v ∧ CW.ts x = CW.ts v := by
  constructor
  · rintro rfl
    exact ⟨hv, rfl, rfl, rfl, rfl, rfl⟩
  · rintro ⟨hx, hr, he, ht, ha, hts⟩
    rw [← packCW_fields hx, hr, he, ht, ha, hts, packCW_fields hv]

/-- A mask that keeps the reserved field and drops `TS`, as every row of the table has it, compares the strobes it
keeps. -/
theorem and_eq_iff_strobes {cw m v : CW} (hm : CW.reserved m = BitVec.allOnes 12) (hmts : CW.ts m = 0)
    (hv : CW.reserved v = 0) (hvts : CW.ts v = 0) : cw &&& m = v ↔ CW.reserved cw = 0 ∧
      (CW.rst cw && CW.rst m) = CW.rst v ∧ (CW.edge cw && CW.edge m) = CW.edge v ∧
      (CW.tick cw && CW.tick m) = CW.tick v ∧ (CW.ack cw && CW.ack m) = CW.ack v := by
  have hres : CW.reserved (cw &&& m) = CW.reserved cw := by
    rw [CW.reserved, BitVec.extractLsb'_and]
    exact (congrArg (CW.reserved cw &&& ·) hm).trans BitVec.and_allOnes
  have hts : CW.ts (cw &&& m) = 0 := by
    rw [CW.ts, BitVec.extractLsb'_and]
    exact (congrArg (CW.ts cw &&& ·) hmts).trans BitVec.and_zero
  rw [cw_eq_iff hv, hres, hts, hvts]
  simp only [CW.rst, CW.edge, CW.tick, CW.ack, BitVec.getLsbD_and, and_true]

/-- A row of the table matches a word exactly where the word has no reserved bit and its strobes ask for the row's
operation. -/
theorem OpcodeRow.holds_iff {r : OpcodeRow} (hr : r ∈ opcodeTable) (cw : CW) : r.holds cw = true ↔
    CW.reserved cw = 0 ∧ r.op.askedBy (CW.rst cw) (CW.edge cw) (CW.tick cw) (CW.ack cw) = true := by
  have hrow : ∀ r ∈ opcodeTable, CW.reserved r.mask = BitVec.allOnes 12 ∧ CW.ts r.mask = 0 ∧
      CW.reserved r.value = 0 ∧ CW.ts r.value = 0 := by decide
  obtain ⟨hm, hmts, hv, hvts⟩ := hrow r hr
  rw [OpcodeRow.holds, beq_iff_eq, and_eq_iff_strobes hm hmts hv hvts]
  refine and_congr_right fun _ => ?_
  generalize CW.rst cw = r, CW.edge cw = e, CW.tick cw = t, CW.ack cw = a
  simp only [opcodeTable, List.mem_cons, List.not_mem_nil, or_false] at hr
  revert r e t a
  rcases hr with rfl | rfl | rfl | rfl | rfl <;> decide

/-- Settles O36: a row matches where the strobes ask for its operation (`OpcodeRow.holds_iff`), and they ask for what
the term performs (`performs_decodeStrobes`). -/
theorem matchedRowsAreTheOperationsPerformed : Obligations.MatchedRowsAreTheOperationsPerformed := by
  unfold Obligations.MatchedRowsAreTheOperationsPerformed
  intro cw r hr
  constructor
  · intro i hi
    obtain ⟨hres, rfl⟩ := decode_ok_iff.mp hi
    rw [OpcodeRow.holds_iff hr, performs_decodeStrobes]
    exact and_iff_right hres
  · intro hres
    rw [← Bool.not_eq_true, OpcodeRow.holds_iff hr]
    exact fun h => hres h.1

end Sys2Proof

namespace Sys2Proof.Machine

/-! ### A step on a presented sample -/

/-- A step runs the term of the oldest sample, with the sample's data ports driven and the sample gone. -/
theorem step_eq_exec {s : State} {d : PortSample} {ds : List PortSample} {i : Instr} (hin : s.inputs = d :: ds)
    (hd : decode d.cw = .ok i) : step s = exec i { s with ports := d.ports, inputs := ds } := by
  have hnext : s.nextSample = d := State.nextSample_cons d hin
  simp only [step, State.sampled, hnext, hin, hd, List.tail_cons]

/-- Settles O41: `step_eq_exec`, also for the sample that `withFetchWord` presents. -/
theorem stepRunsTheDecodedTerm : Obligations.StepRunsTheDecodedTerm := by
  unfold Obligations.StepRunsTheDecodedTerm
  exact ⟨fun s d ds i hin hd => step_eq_exec hin hd,
    fun s nbits w i hw => step_eq_exec (s := s.withFetchWord nbits w) rfl (decodeTableWord_eq_some_iff.mp hw)⟩

section Present

variable (s : State) {d d' : PortSample}

/-- A presented sample without reserved bits makes its composed cycle. -/
theorem step_present (h : CW.reserved d.cw = 0) :
    step (s.present d) = .next (State.afterCycle { s with ports := d.ports } d) :=
  step_eq_next_afterCycle (s := s.present d) h

/-- A presented sample with a reserved bit is refused with the field (30_encoding.md R66). -/
theorem step_present_refused (h : CW.reserved d.cw ≠ 0) :
    step (s.present d) = .refused (.reservedBits (CW.reserved d.cw)) := by
  have hd : decode d.cw = .error (.reservedBits (CW.reserved d.cw)) := decode_error_iff.mpr ⟨h, rfl⟩
  simp only [step, State.present_nextSample, hd]

/-- Two samples with the same data ports and the same reserved field step alike where their cycles are the same. -/
theorem step_present_congr (hp : d.ports = d'.ports) (hres : CW.reserved d.cw = CW.reserved d'.cw)
    (hcycle : cycle s.regs.cfg s.regs d.input = cycle s.regs.cfg s.regs d'.input) :
    step (s.present d) = step (s.present d') := by
  by_cases h : CW.reserved d.cw = 0
  · rw [step_present s h, step_present s (hres ▸ h)]
    simp only [State.afterCycle, hp, hcycle]
  · rw [step_present_refused s h, step_present_refused s (hres ▸ h), hres]

end Present

/-- Settles O42: a presented sample is refused where a reserved bit is set, and makes its cycle where none is. -/
theorem reservedBitsAreRefused : Obligations.ReservedBitsAreRefused := by
  unfold Obligations.ReservedBitsAreRefused
  exact fun s d => ⟨step_present_refused s, fun h => ⟨_, step_present s h⟩⟩

/-! ### Bits that a cycle does not read -/

/-- A cycle with RESET reads nothing of its input but the data ports (42_control.md R131). -/
theorem cycle_congr_of_rst {cfg : Cfg} {s : Regs} {i j : Input} (hi : i.rst = true) (hj : j.rst = true)
    (hrd : i.rdIdx = j.rdIdx) (hctl : i.ctlIn = j.ctlIn) : cycle cfg s i = cycle cfg s j := by
  refine Prod.ext ?_ ?_
  · rw [cycle_reset hi, cycle_reset hj]
  · rw [cycle_reset_outputs hi, cycle_reset_outputs hj, hrd, hctl]

/-- Settles O4: both words make a cycle with RESET and the same data ports (`cycle_congr_of_rst`). -/
theorem resetWordIgnoresItsOtherBits : Obligations.ResetWordIgnoresItsOtherBits := by
  unfold Obligations.ResetWordIgnoresItsOtherBits
  intro s p cw cw' hrst hrst' hres hres'
  exact step_present_congr s rfl (hres.trans hres'.symm) (cycle_congr_of_rst hrst hrst' rfl rfl)

/-- A cycle without `edge_valid` does not read `edge_ts` (30_encoding.md R64). -/
theorem cycle_edgeTs_of_noEdge {cfg : Cfg} {s : Regs} {i : Input} (he : i.edgeValid = false) (ts : Ts) :
    cycle cfg s { i with edgeTs := ts } = cycle cfg s i := by
  simp [cycle, he]

/-- Words that agree above `TS` give the same strobes and reserved field. -/
theorem fields_eq_of_upper_eq {cw cw' : CW} (h : cw.extractLsb' 16 16 = cw'.extractLsb' 16 16) :
    CW.rst cw = CW.rst cw' ∧ CW.edge cw = CW.edge cw' ∧ CW.tick cw = CW.tick cw' ∧ CW.ack cw = CW.ack cw' ∧
      CW.reserved cw = CW.reserved cw' := by
  have hbit : ∀ k < 16, cw.getLsbD (16 + k) = cw'.getLsbD (16 + k) := fun k hk => by
    simpa [hk] using congrArg (fun b : BitVec 16 => b.getLsbD k) h
  refine ⟨hbit 15 (by decide), hbit 14 (by decide), hbit 13 (by decide), hbit 12 (by decide), ?_⟩
  ext k hk
  simpa [CW.reserved] using hbit k (by omega)

/-- Settles O38: the cycle of EDGE takes the field (`cycle_prevTs`), and without EDGE two words that differ in `TS` only
make the same cycle (`cycle_edgeTs_of_noEdge`). -/
theorem timestampFieldIsTheOperandOfEdgeOnly : Obligations.TimestampFieldIsTheOperandOfEdgeOnly := by
  unfold Obligations.TimestampFieldIsTheOperandOfEdgeOnly
  constructor
  · intro s p cw hres hrst hedge
    refine ⟨_, step_present s (d := ⟨cw, p⟩) hres, ?_⟩
    have hr : (PortSample.input ⟨cw, p⟩).rst = false := hrst
    have he : (PortSample.input ⟨cw, p⟩).edgeValid = true := hedge
    calc (cycle s.regs.cfg s.regs (PortSample.input ⟨cw, p⟩)).1.prevTs
        = (PortSample.input ⟨cw, p⟩).edgeTs := by simp [cycle_prevTs, hr, he]
      _ = cw.extractLsb' 0 16 := rfl
  · intro s p cw cw' hedge hupper
    obtain ⟨hr, he, ht, ha, hres⟩ := fields_eq_of_upper_eq hupper
    have hinput : PortSample.input ⟨cw', p⟩ = { PortSample.input ⟨cw, p⟩ with edgeTs := CW.ts cw' } := by
      simp only [PortSample.input, hr, he, ht, ha]
    have hcycle := congrArg (cycle s.regs.cfg s.regs) hinput
    exact step_present_congr s rfl hres (hcycle.trans (cycle_edgeTs_of_noEdge hedge _)).symm

/-! ### Program lines -/

theorem Line.legal_iff {l : Line} :
    l.legal = true ↔ (l.reset = true → l.edge = none ∧ l.tick = false ∧ l.ack = false) := by
  cases hr : l.reset <;> simp [Line.legal, hr, and_assoc]

/-- A word that sets no strobe beside `RST`, and no `TS` without `EDGE`, is that of a well-formed term
(30_encoding.md R69). -/
theorem wellFormed_decodeStrobes_packCW {r e t a : Bool} {ts : Ts}
    (hr : r = true → e = false ∧ t = false ∧ a = false) (hts : e = false → ts = 0) :
    (decodeStrobes (packCW r e t a ts)).wellFormed = true := by
  rw [decodeStrobes_packCW]
  cases r
  case true =>
    obtain ⟨rfl, rfl, rfl⟩ := hr rfl
    rw [hts rfl]
    rfl
  case false =>
    cases e
    case true => rfl
    case false =>
      rw [hts rfl]
      cases t
      case true => rfl
      case false => cases a <;> rfl

/-- The term of a line's word performs what the line's strobes ask for. -/
theorem Line.performs_decodeStrobes_cw (l : Line) (op : Op) :
    (decodeStrobes l.cw).performs op = op.askedBy l.reset l.edge.isSome l.tick l.ack := by
  simp only [performs_decodeStrobes, Line.cw, packCW_rst, packCW_edge, packCW_tick, packCW_ack]

/-- The strobes of a legal line each ask for their own operation: `RESET` stands alone (30_encoding.md R69). -/
theorem Line.askedBy_of_legal {l : Line} (h : l.legal = true) :
    Op.askedBy l.reset l.edge.isSome l.tick l.ack .edge = l.edge.isSome ∧
      Op.askedBy l.reset l.edge.isSome l.tick l.ack .tick = l.tick ∧
      Op.askedBy l.reset l.edge.isSome l.tick l.ack .ack = l.ack := by
  cases hr : l.reset
  case false => exact ⟨rfl, rfl, rfl⟩
  case true =>
    obtain ⟨he, ht, ha⟩ := Line.legal_iff.mp h hr
    rw [he, ht, ha]
    exact ⟨rfl, rfl, rfl⟩

theorem Line.reset_eq_false_of_edge {l : Line} {ts : Ts} (h : l.legal = true) (he : l.edge = some ts) :
    l.reset = false := by
  by_contra hr
  obtain ⟨hnone, -⟩ := Line.legal_iff.mp h (Bool.eq_true_of_not_eq_false hr)
  exact Option.some_ne_none ts (he.symm.trans hnone)

theorem Line.wellFormed_decodeStrobes_cw {l : Line} (h : l.legal = true) : (decodeStrobes l.cw).wellFormed = true := by
  refine wellFormed_decodeStrobes_packCW (fun hr => ?_) (fun he => ?_)
  · obtain ⟨he, ht, ha⟩ := Line.legal_iff.mp h hr
    exact ⟨by rw [he]; rfl, ht, ha⟩
  · have hnone : l.edge = none := by simpa using he
    rw [hnone]
    rfl

/-- The line whose items are the strobes of a well-formed term (30_encoding.md R69). -/
def lineOfTerm : Instr → Line
  | .reset _ _ _ _ => { reset := true }
  | .edge t a ts => { edge := some ts, tick := t, ack := a }
  | .tick a _ => { tick := true, ack := a }
  | .ack _ => { ack := true }
  | .idle _ => {}

theorem lineOfTerm_legal (i : Instr) : (lineOfTerm i).legal = true := by
  cases i <;> rfl

theorem lineOfTerm_cw {i : Instr} (h : i.wellFormed = true) : (lineOfTerm i).cw = encode i := by
  obtain ⟨halone, hts⟩ := (Bool.and_eq_true _ _).mp h
  cases i with
  | reset e t a ts =>
    obtain ⟨⟨rfl, rfl⟩, rfl⟩ : (e = false ∧ t = false) ∧ a = false := by
      simpa [Instr.resetAlone] using halone
    rw [show ts = 0 from eq_of_beq hts]
    rfl
  | edge t a ts => rfl
  | tick a ts => rw [show ts = 0 from eq_of_beq hts]; rfl
  | ack ts => rw [show ts = 0 from eq_of_beq hts]; rfl
  | idle ts => rw [show ts = 0 from eq_of_beq hts]; rfl

/-- Settles O39: a legal line's word has no reserved bit, and its term is well formed and performs what the strobes ask
for; the other way round `lineOfTerm` gives the line. -/
theorem programLinesAreTheWellFormedTerms : Obligations.ProgramLinesAreTheWellFormedTerms := by
  unfold Obligations.ProgramLinesAreTheWellFormedTerms
  refine ⟨fun l hl => ?_, fun i hi => ⟨lineOfTerm i, lineOfTerm_legal i, lineOfTerm_cw hi⟩⟩
  obtain ⟨hedge, htick, hack⟩ := Line.askedBy_of_legal hl
  have hperf := l.performs_decodeStrobes_cw
  refine ⟨decodeStrobes l.cw, decode_packCW .., Line.wellFormed_decodeStrobes_cw hl, hperf .reset,
    (hperf .edge).trans hedge, (hperf .tick).trans htick, (hperf .ack).trans hack, hperf .idle, fun ts hts => ?_⟩
  exact ⟨l.tick, l.ack, by simp [Line.cw, decodeStrobes_packCW, Line.reset_eq_false_of_edge hl hts, hts]⟩

/-! ### PULSES -/

/-- The width of an edge `w` counts after the edge before it: `w`, less one where it passes 65535
(30_encoding.md R70). -/
theorem ruleWidth_of_elapsed {s : Regs} {t w : Nat} (ht : s.prevTs.toNat = t % 65536) (hw : 1 ≤ w ∧ w ≤ 65535) :
    ruleWidth s (BitVec.ofNat 16 ((t + w) % 65536)) =
      if 65535 < t % 65536 + w then w - 1 else w := by
  simp only [ruleWidth, ht, BitVec.toNat_ofNat]
  split <;> split <;> omega

/-- The input record of a line is its items (30_encoding.md R60, R69). -/
theorem Line.sample_input (l : Line) : l.sample.input =
    ⟨l.reset, l.edge.isSome, l.edge.getD 0, l.tick, l.ack, l.read.getD 0, l.ctl.getD Ctl.zero⟩ := by
  simp only [PortSample.input, Line.sample, Line.cw, packCW_rst, packCW_edge, packCW_tick, packCW_ack, packCW_ts]

/-- A line with the one item `EDGE ts` shows the width of that edge and takes its timestamp. -/
theorem cycle_edgeLine (s : Regs) (ts : Ts) :
    (cycle s.cfg s (Line.sample { edge := some ts }).input).2.evWidth.toNat = ruleWidth s ts ∧
      (cycle s.cfg s (Line.sample { edge := some ts }).input).1.prevTs = ts := by
  rw [Line.sample_input]
  exact ⟨(cycle_event rfl).2, cycle_prevTs s _⟩

/-- `PULSES` from an absolute count `t`, of which the previous timestamp is the low 16 bits. -/
theorem pulses_evWidths {s : Regs} {t : Nat} {ws : List Nat} (ht : s.prevTs.toNat = t % 65536)
    (hws : ∀ w ∈ ws, 1 ≤ w ∧ w ≤ 65535) :
    (runOutputs s ((Stmt.pulses t ws).lines.map fun l => l.sample.input)).map (fun o => o.evWidth.toNat) =
      decodedWidths (t % 65536) ws := by
  induction ws generalizing s t with
  | nil => rfl
  | cons w ws ih =>
    obtain ⟨hw, hrest⟩ := List.forall_mem_cons.mp hws
    obtain ⟨hwidth, hprev⟩ := cycle_edgeLine s (BitVec.ofNat 16 ((t + w) % 65536))
    have hts : (BitVec.ofNat 16 ((t + w) % 65536)).toNat = (t + w) % 65536 := by
      rw [BitVec.toNat_ofNat, Nat.mod_mod]
    have hnext := (congrArg BitVec.toNat hprev).trans hts
    have hmod : (t % 65536 + w) % 65536 = (t + w) % 65536 := Nat.mod_add_mod ..
    rw [decodedWidths, hmod, ← ih hnext hrest, ← ruleWidth_of_elapsed ht hw, ← hwidth]
    rfl

/-- Settles O40: `pulses_evWidths`, for a start count that fits the timestamp. -/
theorem pulsesDecodeToTheirStepsLessOneAtAWrap : Obligations.PulsesDecodeToTheirStepsLessOneAtAWrap := by
  unfold Obligations.PulsesDecodeToTheirStepsLessOneAtAWrap
  intro s t0 ws hprev hws
  have hmod : t0 % 65536 = t0 := Nat.mod_eq_of_lt (hprev ▸ s.prevTs.isLt)
  calc _ = decodedWidths (t0 % 65536) ws := pulses_evWidths (hprev.trans hmod.symm) hws
    _ = decodedWidths t0 ws := by rw [hmod]

end Sys2Proof.Machine

/-! ## The decoder of edges: widths, classes and what each class does (40_decoder.md)

`exec_edge_of_edgeOp` says once what the cycle of an EDGE makes of what `edgeOp` hands it; each class of pulse is then that
lemma at its own `edgeOp` equation. -/

namespace Sys2Proof.Machine

/-! ### The width formula -/

theorem width_of_lt (n : Nat) {prev cur : Nat} (h : prev < cur) : width (Config.cfg n) prev cur = cur - prev :=
  if_neg (Nat.not_le.mpr h)

theorem width_of_le (n : Nat) {prev cur : Nat} (h : cur ≤ prev) :
    width (Config.cfg n) prev cur = 65535 - prev + cur :=
  if_pos h

/-- A repeated timestamp reads as the longest width (40_decoder.md R94). -/
theorem ruleWidth_prevTs (s : Regs) : ruleWidth s s.prevTs = 65535 := by
  have hlt := s.prevTs.isLt
  rw [ruleWidth, if_pos le_rfl]
  omega

/-- After reset the width is the timestamp itself, but for timestamp 0, which repeats the reset value (40_decoder.md R93). -/
theorem ruleWidth_reset (n : Nat) (ts : Ts) :
    ruleWidth (Regs.reset n) ts = if ts = 0 then 65535 else ts.toNat := by
  by_cases h : ts = 0
  · rw [if_pos h, h]
    exact ruleWidth_prevTs (Regs.reset n)
  · have hpos : ¬ ts.toNat ≤ (Regs.reset n).prevTs.toNat := fun hle => h (BitVec.eq_of_toNat_eq (Nat.le_zero.mp hle))
    rw [if_neg h, ruleWidth, if_neg hpos]
    exact Nat.sub_zero _

/-- Settles O9: each clause reads one of the two branches of the formula (`width_of_lt`, `width_of_le`). -/
theorem widthFormulaHasTheConsequencesOfRule83 : Obligations.WidthFormulaHasTheConsequencesOfRule83 := by
  unfold Obligations.WidthFormulaHasTheConsequencesOfRule83
  intro n prev cur hprev hcur w
  refine ⟨width_le n (by omega) (by omega), ?_, fun hw => ?_, width_of_lt n, fun h => ?_, fun h => ?_, fun e e' h => ?_⟩
  · rcases Nat.lt_or_ge prev cur with h | h
    · have hw : w = cur - prev := width_of_lt n h
      omega
    · have hw : w = 65535 - prev + cur := width_of_le n h
      omega
  · exact classify_noise n (.inl (by omega))
  · have hw : w = 65535 - prev + cur := width_of_le n h.le
    omega
  · have hw : w = 65535 := (width_of_le n h.le).trans (by omega)
    exact ⟨hw, classify_sync n (by omega)⟩
  · rw [Nat.add_mod, h, ← Nat.add_mod]

/-! ### The derivative of a stored pulse -/

/-- `quant_diff` keeps the sign of the difference and rounds its size down to a multiple of 3 (40_decoder.md R89). -/
theorem quantDiff_eq_sign_mul (n : Nat) (h old : Int) :
    quantDiff (Config.cfg n) h old = (h - old).sign * ((h - old).natAbs / 3 * 3 : Nat) := by
  obtain ⟨r, hr, hpos, hneg⟩ := quantDiff_spec n h old
  have hmod := quantDiff_mod n h old
  rcases lt_trichotomy (h - old) 0 with hlt | heq | hgt
  · rw [Int.sign_eq_neg_one_of_neg hlt]
    omega
  · rw [heq, Int.sign_zero]
    omega
  · rw [Int.sign_eq_one_of_pos hgt]
    omega

theorem difField_toInt (n : Nat) {h old : Int} (hf : fitsS16 (quantDiff (Config.cfg n) h old)) :
    (difField (Config.cfg n) h old).toInt = quantDiff (Config.cfg n) h old := by
  rw [difField, if_pos hf, BitVec.toInt_ofInt, Int.bmod_def]
  omega

/-! ### The cycle of an EDGE -/

/-- What the cycle of an EDGE makes of `edgeOp`'s answer: it writes its registers, the mark (42_control.md R133) and the
counter (41_quality.md R110), and shows its class with the rule's width. -/
theorem exec_edge_of_edgeOp {s : State} {ts : Ts} {e : EdgeResult} (he : edgeOp s.regs.cfg s.regs ts = e) (t a : Bool) :
    ∃ u, exec (.edge t a ts) s = .next u ∧
      u.regs = { e.regs with frameReady := e.frSet || (s.regs.frameReady && !a), qual := u.regs.qual } ∧
      u.regs.qual.toNat =
        (if e.qinc then min (s.regs.qual.toNat + 10) 200 else s.regs.qual.toNat) - (if t then 1 else 0) ∧
      s.shows u e.evClass (ruleWidth s.regs ts) := by
  subst he
  refine ⟨_, exec_edge t a ts s, rfl, ?_, rfl, rfl, _, rfl, rfl, edgeOp_evWidth _ _⟩
  rw [State.commit_regs, qualNext_toNat, qualNext_eq]

/-- Settles O5: `exec_edge_of_edgeOp` at a sync gap. -/
theorem syncEdgeRestartsTheFrame : Obligations.SyncEdgeRestartsTheFrame := by
  unfold Obligations.SyncEdgeRestartsTheFrame
  exact fun t a ts s h => exec_edge_of_edgeOp (edgeOp_sync h) t a

/-- Settles O6: `exec_edge_of_edgeOp` at noise. -/
theorem noiseEdgeIsDropped : Obligations.NoiseEdgeIsDropped := by
  unfold Obligations.NoiseEdgeIsDropped
  exact fun t a ts s h => exec_edge_of_edgeOp (edgeOp_noise h) t a

/-- Settles O7: `exec_edge_of_edgeOp` at a stored pulse. A legal slot count keeps the new index in its field
(`idx_succ_toNat`), and the derivative is the rule's (`quantDiff_eq_sign_mul`) where it fits. -/
theorem dataEdgeIsStored : Obligations.DataEdgeIsStored := by
  unfold Obligations.DataEdgeIsStored
  intro t a ts s hs hdata hi
  obtain ⟨u, hu, hregs, hqual, hshows⟩ := exec_edge_of_edgeOp (edgeOp_stored hdata hi) t a
  have hidx : u.regs.idx = BitVec.ofNat 8 (s.regs.idx.toNat + 1) := congrArg Regs.idx hregs
  refine ⟨u, _, hu, hregs.trans (by rw [hidx]), hidx ▸ idx_succ_toNat hs hi, ?_, hqual, hshows⟩
  rintro delta dq rfl hdq hlo hhi
  rw [← quantDiff_eq_sign_mul s.regs.slots.length] at hdq
  subst hdq
  exact difField_toInt _ ⟨hlo, hhi⟩

/-- Settles O8: `exec_edge_of_edgeOp` at an overrun. -/
theorem dataEdgeBeyondTheLastSlotOverruns : Obligations.DataEdgeBeyondTheLastSlotOverruns := by
  unfold Obligations.DataEdgeBeyondTheLastSlotOverruns
  exact fun t a ts s h hi => exec_edge_of_edgeOp (edgeOp_overrun h hi) t a

/-- Settles O10: a repeated timestamp is a sync gap (`ruleWidth_prevTs`), so O5 applies. -/
theorem repeatedTimestampRestartsTheFrame : Obligations.RepeatedTimestampRestartsTheFrame := by
  unfold Obligations.RepeatedTimestampRestartsTheFrame
  intro t a s
  have hw := ruleWidth_prevTs s.regs
  obtain ⟨u, hu, hregs, -, hshows⟩ := syncEdgeRestartsTheFrame t a s.regs.prevTs s (by omega)
  exact ⟨u, hu, congrArg Regs.idx hregs, hw ▸ hshows⟩

/-! ### The event outputs -/

/-- The code of the class that an EDGE shows (30_encoding.md R67; 40_decoder.md R92). -/
theorem edgeOp_evClass_code (s : Regs) (ts : Ts) : (edgeOp s.cfg s ts).evClass.code =
    if syncWidth (ruleWidth s ts) then 0b010
    else if dataWidth (ruleWidth s ts) then if s.idx.toNat < s.slots.length then 0b011 else 0b100
    else 0b001 := by
  rcases edgeOp_cases s ts with h | h | ⟨h, hi⟩ | ⟨h, hi⟩
  · rw [edgeOp_sync h, if_pos h]
    rfl
  · rw [edgeOp_noise h, if_neg (by omega), if_neg (by omega)]
    rfl
  · rw [edgeOp_stored h hi, if_neg (by omega), if_pos h, if_pos hi]
    rfl
  · rw [edgeOp_overrun h hi, if_neg (by omega), if_pos h, if_neg (by omega)]
    rfl

/-- Settles O12: an EDGE shows its width and the code of its class (`edgeOp_evClass_code`), every other operation NONE and
0 (`exec_shape_event`). -/
theorem eventOutputsDescribeTheEdge : Obligations.EventOutputsDescribeTheEdge := by
  unfold Obligations.EventOutputsDescribeTheEdge
  constructor
  · intro t a ts s
    obtain ⟨u, hu, -, -, -, -, o, hobs, hclass, hwidth⟩ := exec_edge_of_edgeOp (s := s) (ts := ts) rfl t a
    exact ⟨u, o, hu, hobs, hwidth, hclass ▸ edgeOp_evClass_code s.regs ts⟩
  · intro i s hedge
    obtain ⟨c, w, r, hu, hnone⟩ := exec_shape_event i s
    obtain ⟨rfl, rfl⟩ := hnone hedge
    exact ⟨_, _, hu, rfl, rfl, rfl⟩

theorem edgeOp_evClass_eq_sync_iff (s : Regs) (ts : Ts) : (edgeOp s.cfg s ts).evClass = .sync ↔
    syncWidth (ruleWidth s ts) := by
  rcases edgeOp_cases s ts with h | h | ⟨h, hi⟩ | ⟨h, hi⟩
  · exact iff_of_true (by rw [edgeOp_sync h]) h
  · simp only [edgeOp_noise h, reduceCtorEq, false_iff]; omega
  · simp only [edgeOp_stored h hi, reduceCtorEq, false_iff]; omega
  · simp only [edgeOp_overrun h hi, reduceCtorEq, false_iff]; omega

theorem edgeOp_evClass_eq_noise_iff (s : Regs) (ts : Ts) : (edgeOp s.cfg s ts).evClass = .noise ↔
    noiseWidth (ruleWidth s ts) := by
  rcases edgeOp_cases s ts with h | h | ⟨h, hi⟩ | ⟨h, hi⟩
  · simp only [edgeOp_sync h, reduceCtorEq, false_iff]; omega
  · exact iff_of_true (by rw [edgeOp_noise h]) h
  · simp only [edgeOp_stored h hi, reduceCtorEq, false_iff]; omega
  · simp only [edgeOp_overrun h hi, reduceCtorEq, false_iff]; omega

/-! ### The first edge after reset -/

theorem Regs.reset_idx_lt {n : Nat} (hn : Config.legalCount n) :
    (Regs.reset n).idx.toNat < (Regs.reset n).slots.length := by
  rw [Regs.reset_slots, List.length_replicate]
  exact hn.1

/-- `EDGE 2000` as the first edge after reset fills slot 0 with half of 2000 and its multiple of 3 (40_decoder.md R93). -/
theorem edge2000_after_reset {n : Nat} (hn : Config.legalCount n) {t a : Bool} {u : State}
    (hu : exec (.edge t a 2000) (State.resetFor n) = .next u) :
    slotRead u.regs 0 = ⟨1000, 999⟩ ∧ u.regs.idx = 1 := by
  have hw : ruleWidth (Regs.reset n) 2000 = 2000 := ruleWidth_reset n 2000
  have hi := Regs.reset_idx_lt hn
  obtain ⟨v, d, hv, hregs, hidx, hdif, -, -⟩ := dataEdgeIsStored t a 2000 (State.resetFor n) (Regs.reset_sized hn)
    (by rw [State.resetFor_regs, hw]; decide) hi
  obtain rfl : u = v := Host.Outcome.next.inj (hu.symm.trans hv)
  have hold : slotRead (Regs.reset n) (Regs.reset n).idx.toNat = Slot.zero :=
    List.eq_of_mem_replicate (slotRead_mem hi)
  have hd : d = 999 := by
    refine BitVec.eq_of_toInt_eq (hdif 1000 999 ?_ (by decide) (by decide) (by decide))
    rw [State.resetFor_regs, hw, hold]
    decide
  refine ⟨?_, BitVec.eq_of_toNat_eq hidx⟩
  calc slotRead u.regs 0
      = slotRead { Regs.reset n with slots := (Regs.reset n).slots.set 0 ⟨1000, 999⟩ } 0 :=
        slotRead_congr (by rw [hregs, State.resetFor_regs, hw, hd]; rfl) 0
    _ = ⟨1000, 999⟩ := (slotRead_set _ 0 0 _ hi).trans (if_pos rfl)

/-- Settles O11: the width after reset is the timestamp's (`ruleWidth_reset`), the class follows it alone because slot 0 is
free, and `edge2000_after_reset` is the rule's example. -/
theorem firstEdgeAfterResetIsMeasuredAgainstZero : Obligations.FirstEdgeAfterResetIsMeasuredAgainstZero := by
  unfold Obligations.FirstEdgeAfterResetIsMeasuredAgainstZero
  intro n t a ts hn
  obtain ⟨u, hu, -, -, -, -, o, hobs, hclass, hwidth⟩ :=
    exec_edge_of_edgeOp (s := State.resetFor n) (ts := ts) rfl t a
  have hi := Regs.reset_idx_lt hn
  refine ⟨u, o, hu, hobs, hwidth.trans (ruleWidth_reset n ts), ?_, ?_, ?_, ?_⟩
  · rw [hclass, hwidth]
    exact edgeOp_evClass_eq_sync_iff _ ts
  · rw [hclass, hwidth]
    exact (edgeOp_evClass_eq_stored_iff _ ts).trans (and_iff_left hi)
  · rw [hclass, hwidth]
    exact edgeOp_evClass_eq_noise_iff _ ts
  · rintro rfl
    have hw : ruleWidth (Regs.reset n) 2000 = 2000 := ruleWidth_reset n 2000
    refine ⟨BitVec.eq_of_toNat_eq (hwidth.trans hw), ?_, edge2000_after_reset hn hu⟩
    rw [hclass]
    exact (edgeOp_evClass_eq_stored_iff (Regs.reset n) 2000).mpr ⟨by omega, hi⟩

end Sys2Proof.Machine

/-! ## The quality counter and the outputs it gates (41_quality.md)

`exec_qual` says once what every operation but RESET makes of the counter, and `observed_of_exec` that the outputs a
cycle shows, but for the event outputs, are those of the state at its start. -/

namespace Sys2Proof.Machine

/-! ### The counter after one operation -/

/-- TICK alone takes one from the counter, which stays at 0 there (41_quality.md R110, R111). -/
theorem qualNext_tick_toNat (n : Nat) (q : U8) :
    (BitVec.ofNat 8 (qualNext (Config.cfg n) q.toNat false true)).toNat = q.toNat - 1 := by
  rw [qualNext_toNat, qualNext_eq]
  rfl

/-- The counter after an operation other than RESET: the increment of a data pulse with its clamp, then the decrement of
TICK (41_quality.md R110). -/
theorem exec_qual {i : Instr} (hi : i.performs .reset = false) (s : State) : ∃ u, exec i s = .next u ∧
    u.regs.qual.toNat = (if i.dataEdge s.regs then min (s.regs.qual.toNat + 10) 200 else s.regs.qual.toNat) -
      (if i.performs .tick then 1 else 0) := by
  cases i with
  | reset e t a ts => simp [Instr.performs] at hi
  | edge t a ts =>
    obtain ⟨u, hu, -, hqual, -⟩ := exec_edge_of_edgeOp (s := s) (ts := ts) rfl t a
    rw [edgeOp_qinc] at hqual
    exact ⟨u, hu, by simpa [Instr.dataEdge, Instr.performs] using hqual⟩
  | tick a ts => exact ⟨_, exec_tick a ts s, qualNext_tick_toNat _ s.regs.qual⟩
  | ack ts => exact ⟨_, exec_ack ts s, rfl⟩
  | idle ts => exact ⟨_, exec_idle ts s, rfl⟩

/-- Settles O16: `exec_qual`, with the decrement as the rule writes it. -/
theorem qualityCounterFollowsRule110 : Obligations.QualityCounterFollowsRule110 := by
  unfold Obligations.QualityCounterFollowsRule110
  intro i s hi
  obtain ⟨u, hu, hqual⟩ := exec_qual hi s
  refine ⟨u, hu, fun q1 q2 hq1 hq2 => ?_⟩
  rw [← hq1] at hqual
  have hdec : q2 = q1 - (if i.performs .tick then 1 else 0) := by
    rw [hq2]
    by_cases ht : i.performs .tick = true
    · simp only [ht, true_and, if_true]
      split <;> omega
    · simp [ht]
  refine ⟨hqual.trans hdec.symm, fun hle => ?_⟩
  have hq1le : q1 ≤ 200 := by
    rw [hq1]
    split <;> omega
  omega

/-- Settles O17: `exec_qual` for a data pulse alone, and for an operation without one. -/
theorem incrementCornerCases : Obligations.IncrementCornerCases := by
  unfold Obligations.IncrementCornerCases
  constructor
  · intro a ts s hdata
    obtain ⟨u, hu, hqual⟩ := exec_qual (i := .edge false a ts) rfl s
    have hedge : (Instr.edge false a ts).dataEdge s.regs = true := decide_eq_true hdata
    have htick : (Instr.edge false a ts).performs .tick = false := rfl
    simp only [hedge, htick, if_true, Bool.false_eq_true, if_false] at hqual
    exact ⟨u, hu, by omega, by omega⟩
  · intro i s hedge hi
    obtain ⟨u, hu, hqual⟩ := exec_qual hi s
    simp only [hedge, Bool.false_eq_true, if_false] at hqual
    refine ⟨u, hu, hqual.trans_le (Nat.sub_le _ _), fun htick => BitVec.eq_of_toNat_eq ?_⟩
    simpa [htick] using hqual

/-- Settles O13: TICK writes the mark and the counter alone (`exec_tick`), and the counter loses one
(`qualNext_tick_toNat`). -/
theorem tickDecaysTheCounter : Obligations.TickDecaysTheCounter := by
  unfold Obligations.TickDecaysTheCounter
  intro a ts s
  refine ⟨_, exec_tick a ts s, rfl, ?_, rfl, rfl, _, rfl, rfl, rfl⟩
  rw [State.commit_regs, qualNext_tick_toNat]
  split <;> omega

/-! ### The counter over runs -/

/-- A data pulse without TICK raises the counter by 10, to at most 200 (41_quality.md R110, R112). -/
theorem cycle_qual_of_dataEdge {s : Regs} {i : Input} (h : (i.dataEdge s && !i.tick) = true) :
    (cycle s.cfg s i).1.qual.toNat = min (s.qual.toNat + 10) 200 := by
  obtain ⟨hedge, htick⟩ : i.dataEdge s = true ∧ i.tick = false := by simpa using h
  have hr : i.rst = false := by
    simp only [Input.dataEdge, Bool.and_eq_true, Bool.not_eq_true'] at hedge
    exact hedge.1.1
  simp [cycle_qual hr, hedge, htick]

/-- TICK without a data pulse lowers the counter by 1, to at least 0 (41_quality.md R110, R111). -/
theorem cycle_qual_of_tick {s : Regs} {i : Input} (h : (!i.rst && i.tick && !i.dataEdge s) = true) :
    (cycle s.cfg s i).1.qual.toNat = s.qual.toNat - 1 := by
  obtain ⟨⟨hr, htick⟩, hedge⟩ : (i.rst = false ∧ i.tick = true) ∧ i.dataEdge s = false := by simpa using h
  simp [cycle_qual hr, hedge, htick]

/-- Over a burst of data pulses without ticks the counter climbs to 200 and stops there (41_quality.md R113). -/
theorem runRegs_qual_of_dataEdges {s : Regs} {is : List Input} (hq : s.qual.toNat ≤ 200)
    (h : along (fun s i => i.dataEdge s && !i.tick) s is = true) :
    (runRegs s is).qual.toNat = min (s.qual.toNat + 10 * is.length) 200 := by
  induction is generalizing s with
  | nil => exact (min_eq_left hq).symm
  | cons i is ih =>
    obtain ⟨hnow, hrest⟩ := (Bool.and_eq_true _ _).mp h
    have hcycle := cycle_qual_of_dataEdge hnow
    rw [runRegs, ih (by omega) hrest, hcycle, List.length_cons]
    omega

/-- Over ticks without data pulses the counter falls to 0 and stays there (41_quality.md R113). -/
theorem runRegs_qual_of_ticks {s : Regs} {is : List Input}
    (h : along (fun s i => !i.rst && i.tick && !i.dataEdge s) s is = true) :
    (runRegs s is).qual.toNat = s.qual.toNat - is.length := by
  induction is generalizing s with
  | nil => rfl
  | cons i is ih =>
    obtain ⟨hnow, hrest⟩ := (Bool.and_eq_true _ _).mp h
    rw [runRegs, ih hrest, cycle_qual_of_tick hnow, List.length_cons]
    omega

/-- Settles O18: each clause is an induction on the inputs with the counter of one cycle. -/
theorem counterIsMonotoneOverBurstsAndTicks : Obligations.CounterIsMonotoneOverBurstsAndTicks := by
  unfold Obligations.CounterIsMonotoneOverBurstsAndTicks
  exact ⟨fun _ _ hq h => runRegs_qual_of_dataEdges hq h, fun _ _ h => runRegs_qual_of_ticks h⟩

/-! ### The gating outputs -/

theorem sigOk_iff (n : Nat) (s : Regs) : sigOk (Config.cfg n) s = true ↔ 101 ≤ s.qual.toNat :=
  decide_eq_true_iff

theorem updateEn_iff (s : Regs) : updateEn s = true ↔ s.frameReady = true ∧ s.qual.toNat ≠ 0 := by
  rw [updateEn, Bool.and_eq_true, Bool.not_eq_true', ← Bool.not_eq_true, failsafe_iff]

/-- The gate is closed exactly in failsafe (41_quality.md R115, R118). -/
theorem gate_eq (s : Regs) (c : Ctl) : gate s c = if s.qual.toNat = 0 then Ctl.zero else c :=
  if_congr (failsafe_iff s) rfl rfl

/-- The record of a cycle holds the outputs of the state at its start, whatever its operation; only the event outputs
are the operation's own (42_control.md R139). -/
theorem observed_of_exec {i : Instr} {s u : State} (h : exec i s = .next u) :
    ∃ c w, u.observed = outputs s.regs.cfg s.regs s.ports c w :: s.observed := by
  obtain ⟨c, w, r, hshape⟩ := exec_shape s i
  obtain rfl : u = s.commit c w r := Host.Outcome.next.inj (h.symm.trans hshape)
  exact ⟨c, w, rfl⟩

/-- Settles O21: every cycle shows the outputs of the state at its start (`exec_shape`), and the gating ones are
functions of its counter. -/
theorem gatingOutputsFollowTheCounter : Obligations.GatingOutputsFollowTheCounter := by
  unfold Obligations.GatingOutputsFollowTheCounter
  intro i s
  obtain ⟨c, w, r, hu⟩ := exec_shape s i
  exact ⟨_, _, hu, rfl, failsafe_iff s.regs, sigOk_iff _ s.regs, updateEn_iff s.regs,
    fun hq => (gate_eq s.regs _).trans (if_pos hq), fun hq => (gate_eq s.regs _).trans (if_neg hq)⟩

/-- Settles O23: two operations on one state show its outputs alike (`exec_shape`); a data pulse at quality 0 shows the
failsafe of its start, and the next cycle the counter it left (`exec_qual`). -/
theorem mooreOutputsIgnoreTheOperation : Obligations.MooreOutputsIgnoreTheOperation := by
  unfold Obligations.MooreOutputsIgnoreTheOperation
  constructor
  · intro i j s
    obtain ⟨c, w, r, hu⟩ := exec_shape s i
    obtain ⟨c', w', r', hv⟩ := exec_shape s j
    exact ⟨_, _, _, _, hu, hv, rfl, rfl, rfl⟩
  · intro t a ts s hq hdata
    obtain ⟨u, hu, hqual⟩ := exec_qual (i := .edge t a ts) rfl s
    obtain ⟨c, w, hobs⟩ := observed_of_exec hu
    have hafter : u.regs.qual.toNat = if t then 9 else 10 := by
      rw [hqual, hq]
      cases t <;> simp [Instr.dataEdge, Instr.performs, hdata]
    refine ⟨u, _, hu, hobs, (failsafe_iff s.regs).mpr (by rw [hq]; rfl), hafter, fun i => ?_⟩
    obtain ⟨c', w', r, hv⟩ := exec_shape u i
    refine ⟨_, _, hv, rfl, Bool.eq_false_of_not_eq_true fun hf => ?_⟩
    have hzero : u.regs.qual.toNat = 0 := (failsafe_iff u.regs).mp hf
    split at hafter <;> omega

end Sys2Proof.Machine

/-! ## Control: the cycle, its outputs and the operations RESET, ACK and IDLE (42_control.md)

`exec_commits` says once that what an operation commits depends on `S` alone, so the data ports change nothing of the next
state. Every cycle commits the record of the state at its start (`exec_shape`), which the lemmas on the status word and the
read port describe field by field. -/

namespace Sys2Proof.Machine

/-! ### The step -/

/-- Settles O44: `step_eq_next_afterCycle`, with the state it names written out. -/
theorem stepIsTheComposedCycle : Obligations.StepIsTheComposedCycle := by
  unfold Obligations.StepIsTheComposedCycle
  exact fun s hres => step_eq_next_afterCycle hres

/-- A control word with a reserved bit, next to come, is refused with its field (30_encoding.md R66). -/
theorem step_refused_of_reserved {s : State} {d : PortSample} {ds : List PortSample} (hin : s.inputs = d :: ds)
    (h : CW.reserved d.cw ≠ 0) : step s = .refused (.reservedBits (CW.reserved d.cw)) := by
  have hs : s = State.present { s with inputs := ds } d := by rw [State.present, ← hin]
  rw [hs]
  exact step_present_refused _ h

/-- With no sample left a step is IDLE, its data ports quiet (log 3). -/
theorem step_of_inputs_nil {s : State} (hin : s.inputs = []) : step s = exec (.idle 0) s.sampled := by
  have hquiet : decode PortSample.quiet.cw = .ok (.idle 0) := decode_ok_iff.mpr (by decide)
  simp only [step, State.nextSample_nil hin, hquiet]

/-- Settles O43: a state either has no sample left (`step_of_inputs_nil`) or a next one, which steps exactly where it sets
no reserved bit. -/
theorem nothingStopsButAReservedBit : Obligations.NothingStopsButAReservedBit := by
  unfold Obligations.NothingStopsButAReservedBit
  have hidle : ∀ s : State, s.inputs = [] → ∃ u, step s = .next u ∧ u.regs = s.regs ∧ u.inputs = [] := fun s hin =>
    ⟨_, (step_of_inputs_nil hin).trans (exec_idle 0 s.sampled), rfl, by simp [hin]⟩
  refine ⟨fun i s => ?_, fun s => ?_, hidle⟩
  · obtain ⟨c, w, r, hu⟩ := exec_shape s i
    exact ⟨_, hu⟩
  · cases hin : s.inputs with
    | nil =>
      obtain ⟨u, hu, -, -⟩ := hidle s hin
      exact .inl ⟨u, hu⟩
    | cons d ds =>
      by_cases hres : CW.reserved d.cw = 0
      · rw [← State.nextSample_cons d hin] at hres
        exact .inl ⟨_, step_eq_next_afterCycle hres⟩
      · exact .inr ⟨d, ds, rfl, hres, step_refused_of_reserved hin hres⟩

/-! ### The status word -/

theorem statusWord_qual (n : Nat) (s : Regs) : (statusWord (Config.cfg n) s).extractLsb' 0 8 = s.qual := by
  ext k hk
  simp [getLsbD_statusWord, hk]

theorem statusWord_idx (n : Nat) (s : Regs) : (statusWord (Config.cfg n) s).extractLsb' 8 8 = s.idx := by
  ext k hk
  simp [getLsbD_statusWord, show 8 + k < 16 by omega, BitVec.getLsbD_eq_getElem hk]

/-- Bits 31:20 of `STATUS` are hardwired 0 (10_state.md R28). -/
theorem statusWord_high (n : Nat) (s : Regs) : (statusWord (Config.cfg n) s).extractLsb' 20 12 = 0 := by
  ext k hk
  simp [getLsbD_statusWord, show ¬ 20 + k < 8 by omega, show ¬ 20 + k < 16 by omega, show 20 + k ≠ 16 by omega,
    show 20 + k ≠ 17 by omega, show 20 + k ≠ 18 by omega, show 20 + k ≠ 19 by omega]

theorem statusWord_frameReady (n : Nat) (s : Regs) : (statusWord (Config.cfg n) s).getLsbD 16 = s.frameReady :=
  getLsbD_statusWord n s 16

theorem statusWord_failsafe (n : Nat) (s : Regs) : (statusWord (Config.cfg n) s).getLsbD 17 = failsafe s :=
  getLsbD_statusWord n s 17

theorem statusWord_sigOk (n : Nat) (s : Regs) : (statusWord (Config.cfg n) s).getLsbD 18 = sigOk (Config.cfg n) s :=
  getLsbD_statusWord n s 18

theorem statusWord_updateEn (n : Nat) (s : Regs) : (statusWord (Config.cfg n) s).getLsbD 19 = updateEn s :=
  getLsbD_statusWord n s 19

theorem failsafe_eq_decide (s : Regs) : failsafe s = decide (s.qual.toNat = 0) :=
  Bool.eq_iff_iff.mpr ((failsafe_iff s).trans decide_eq_true_iff.symm)

theorem updateEn_eq_decide (s : Regs) : updateEn s = (s.frameReady && decide (s.qual.toNat ≠ 0)) := by
  rw [updateEn, failsafe_eq_decide, decide_not]

/-- Settles O20: every cycle shows the word of the state at its start (`exec_shape`), and the `statusWord_` lemmas
read its fields. -/
theorem statusWordIsDrivenEveryCycle : Obligations.StatusWordIsDrivenEveryCycle := by
  unfold Obligations.StatusWordIsDrivenEveryCycle
  intro i s
  obtain ⟨c, w, r, hu⟩ := exec_shape s i
  have hfailsafe := statusWord_failsafe s.regs.slots.length s.regs
  have hsigOk := statusWord_sigOk s.regs.slots.length s.regs
  have hupdateEn := statusWord_updateEn s.regs.slots.length s.regs
  exact ⟨_, _, hu, rfl, statusWord_qual _ _, statusWord_idx _ _, statusWord_frameReady _ _,
    hfailsafe.trans (failsafe_eq_decide _), hsigOk, hupdateEn.trans (updateEn_eq_decide _), statusWord_high _ _,
    (statusWord_qual _ _).symm, (statusWord_frameReady _ _).symm, hfailsafe.symm, hsigOk.symm, hupdateEn.symm⟩

/-! ### The read port -/

/-- In range the read port gives the slot (42_control.md R136). -/
theorem readPort_of_getElem? {s : Regs} {k : U8} {x : Slot} (h : s.slots[k.toNat]? = some x) :
    rdOob s.cfg k = false ∧ readPort s.cfg s k = x := by
  obtain ⟨hlt, -⟩ := List.getElem?_eq_some_iff.mp h
  have hoob : rdOob s.cfg k = false := decide_eq_false (Nat.not_le.mpr hlt)
  exact ⟨hoob, by simp [readPort, hoob, slotRead, h]⟩

/-- Out of range the read port gives zeros (42_control.md R137). -/
theorem readPort_of_length_le {s : Regs} {k : U8} (h : s.slots.length ≤ k.toNat) :
    rdOob s.cfg k = true ∧ readPort s.cfg s k = Slot.zero := by
  have hoob : rdOob s.cfg k = true := decide_eq_true h
  exact ⟨hoob, if_pos hoob⟩

/-- What an operation commits, its event outputs and its next `S`, depends on `S` alone (42_control.md R141): not on the
data ports, the samples to come or the outputs observed. -/
theorem exec_commits (i : Instr) (r₀ : Regs) :
    ∃ c w r, ∀ s : State, s.regs = r₀ → exec i s = .next (s.commit c w r) := by
  cases i with
  | reset e t a ts => exact ⟨_, _, _, fun s hs => hs ▸ exec_reset e t a ts s⟩
  | edge t a ts => exact ⟨_, _, _, fun s hs => hs ▸ exec_edge t a ts s⟩
  | tick a ts => exact ⟨_, _, _, fun s hs => hs ▸ exec_tick a ts s⟩
  | ack ts => exact ⟨_, _, _, fun s hs => hs ▸ exec_ack ts s⟩
  | idle ts => exact ⟨_, _, _, fun s hs => hs ▸ exec_idle ts s⟩

/-- Settles O22: the record holds the read port of the state at the start, and with other data ports the operation commits
the same (`exec_commits`). -/
theorem readPortGivesThePairAtTheStartOfTheCycle : Obligations.ReadPortGivesThePairAtTheStartOfTheCycle := by
  unfold Obligations.ReadPortGivesThePairAtTheStartOfTheCycle
  intro i s
  obtain ⟨c, w, r, hexec⟩ := exec_commits i s.regs
  refine ⟨_, _, hexec s rfl, rfl, fun x hx => ?_, fun hle => ?_, fun p => ⟨_, hexec { s with ports := p } rfl, rfl, rfl⟩⟩
  · obtain ⟨hoob, hpair⟩ := readPort_of_getElem? hx
    exact ⟨congrArg Slot.cap hpair, congrArg Slot.dif hpair, hoob⟩
  · obtain ⟨hoob, hpair⟩ := readPort_of_length_le hle
    exact ⟨congrArg Slot.cap hpair, congrArg Slot.dif hpair, hoob⟩

/-! ### RESET, ACK and IDLE -/

/-- The reset values in the word of 10_state.md R28: `failsafe` is the only bit set. -/
theorem statusWord_reset (n m : Nat) : statusWord (Config.cfg n) (Regs.reset m) = 0x00020000 := by
  have hfailsafe : failsafe (Regs.reset m) = true := rfl
  have hsigOk : sigOk (Config.cfg n) (Regs.reset m) = false := rfl
  have hupdateEn : updateEn (Regs.reset m) = false := rfl
  simp only [statusWord, hfailsafe, hsigOk, hupdateEn, Regs.reset_frameReady, Regs.reset_idx, Regs.reset_qual]
  decide

/-- Settles O2: RESET commits the reset state (`exec_reset`), which the record of the next cycle shows
(`statusWord_reset`). -/
theorem resetStatusIsVisibleFromTheNextCycle : Obligations.ResetStatusIsVisibleFromTheNextCycle := by
  unfold Obligations.ResetStatusIsVisibleFromTheNextCycle
  intro e t a ts s
  refine ⟨_, _, exec_reset e t a ts s, rfl, rfl, rfl, fun i => ?_⟩
  obtain ⟨c, w, r, hv⟩ := exec_shape (s.commit .none 0 (Regs.reset s.regs.slots.length)) i
  exact ⟨_, _, hv, rfl, statusWord_reset _ _⟩

/-- With no set of the mark an acknowledgement leaves it clear (42_control.md R133). -/
theorem frameReadyNext_ack (frameReady : Bool) : frameReadyNext false frameReady true = false := by
  simp [frameReadyNext]

/-- Settles O14: ACK writes the mark alone (`exec_ack`). -/
theorem ackConsumesTheMark : Obligations.AckConsumesTheMark := by
  unfold Obligations.AckConsumesTheMark
  intro ts s
  refine ⟨_, exec_ack ts s, ?_, rfl, rfl, _, rfl, rfl, rfl⟩
  rw [State.commit_regs, frameReadyNext_ack]

/-- Settles O15: IDLE commits the state at its start (`exec_idle`). -/
theorem idleKeepsTheState : Obligations.IdleKeepsTheState := by
  unfold Obligations.IdleKeepsTheState
  exact fun ts s => ⟨_, exec_idle ts s, rfl, rfl, rfl, _, rfl, rfl, rfl⟩

end Sys2Proof.Machine

/-! ## Reset and hazards: latencies and hazards over runs (70_reset_and_hazards.md)

Each statement is about runs. What is new about a cycle is said once: how far it can raise the counter
(`cycle_qual_le_add`), which slot it can write (`cycle_slotRead_ne`), and that with no slot left it keeps the index and the
slots (`cycle_of_no_slot_left`). -/

namespace Sys2Proof.Machine

/-! ### Failsafe latency and signal presence -/

/-- Over ticks without data pulses failsafe stands from the tick that takes the counter's last one (41_quality.md R115). -/
theorem failsafe_runRegs_of_ticks_iff {s : Regs} {is : List Input}
    (h : along (fun s i => !i.rst && i.tick && !i.dataEdge s) s is = true) :
    failsafe (runRegs s is) = true ↔ s.qual.toNat ≤ is.length := by
  rw [failsafe_iff, runRegs_qual_of_ticks h]
  exact Nat.sub_eq_zero_iff_le

/-- No cycle, RESET included, raises the counter by more than 10, and none without a data pulse raises it
(41_quality.md R110). -/
theorem cycle_qual_le_add (s : Regs) (i : Input) :
    (cycle s.cfg s i).1.qual.toNat ≤ s.qual.toNat + 10 * if i.dataEdge s then 1 else 0 := by
  cases hr : i.rst
  · rw [cycle_qual hr]
    cases i.dataEdge s <;> simp only [if_true, Bool.false_eq_true, if_false] <;> omega
  · simp [cycle_reset hr]

/-- A run raises the counter by at most 10 for each of its data pulses. -/
theorem runRegs_qual_le_add (s : Regs) (is : List Input) :
    (runRegs s is).qual.toNat ≤ s.qual.toNat + 10 * dataEdges s is := by
  induction is generalizing s with
  | nil => exact Nat.le_refl _
  | cons i is ih =>
    have hnow := cycle_qual_le_add s i
    have hrest := ih (cycle s.cfg s i).1
    rw [runRegs, dataEdges]
    omega

/-- Settles O19: the first two clauses are `failsafe_runRegs_of_ticks_iff`, from the counter of the start and from the 10
that one pulse leaves; for the last, 101 is out of reach of ten pulses (`runRegs_qual_le_add`). -/
theorem failsafeLatencyAndSignalPresence : Obligations.FailsafeLatencyAndSignalPresence := by
  unfold Obligations.FailsafeLatencyAndSignalPresence
  refine ⟨fun s is h => failsafe_runRegs_of_ticks_iff h, fun s i is hq hdata htick h => ?_, fun s is hq hok => ?_⟩
  · have hten : (cycle s.cfg s i).1.qual.toNat = 10 := by
      rw [cycle_qual_of_dataEdge (by simp [hdata, htick]), hq]
      rfl
    rw [runRegs, failsafe_runRegs_of_ticks_iff h, hten]
  · have hzero : s.qual.toNat = 0 := congrArg BitVec.toNat hq
    have hmin := (sigOk_iff _ _).mp hok
    have hmax := runRegs_qual_le_add s is
    omega

/-! ### Stability of the first four slots -/

/-- A cycle without RESET changes no slot but the one at the index, and that one with a data pulse only
(20_memory.md R41, R42). -/
theorem cycle_slotRead_ne {s : Regs} {i : Input} (hr : i.rst = false) {j : Nat}
    (hj : slotRead (cycle s.cfg s i).1 j ≠ slotRead s j) : i.dataEdge s = true ∧ j = s.idx.toNat := by
  cases he : i.edgeValid
  · exact absurd (slotRead_congr (by rw [cycle_noEdge hr he]) j) hj
  · rw [slotRead_congr (s := (edgeOp s.cfg s i.edgeTs).regs) (by rw [cycle_edge hr he]) j] at hj
    obtain ⟨hdata, hidx, -⟩ := edgeOp_slotRead_ne hj
    exact ⟨by simp [Input.dataEdge, hr, he, hdata], hidx⟩

/-- Without RESET and sync gap the index does not fall, so a run writes no slot below the index of its start. -/
theorem runRegs_slotRead_of_lt_idx {s : Regs} (hs : s.sized) {is : List Input} {j : Nat} (hj : j < s.idx.toNat)
    (h : along (fun s i => !i.rst && !i.syncEdge s) s is = true) : slotRead (runRegs s is) j = slotRead s j := by
  suffices hrun : (runRegs s is).sized ∧ j < (runRegs s is).idx.toNat ∧ slotRead (runRegs s is) j = slotRead s j by
    obtain ⟨-, -, hkept⟩ := hrun
    exact hkept
  refine runRegs_induction (Q := fun r => r.sized ∧ j < r.idx.toNat ∧ slotRead r j = slotRead s j) ?_ s is
    ⟨hs, hj, rfl⟩ h
  intro r i ⟨hsized, hlt, hkept⟩ hnow
  obtain ⟨hr, hw⟩ := not_reset_not_syncEdge_iff.mp hnow
  have hidx := cycle_idx hsized hr hw
  have hcycle : slotRead (cycle r.cfg r i).1 j = slotRead r j := by
    by_contra hne
    exact hlt.ne (cycle_slotRead_ne hr hne).2
  exact ⟨cycle_sized hsized i, by omega, hcycle.trans hkept⟩

/-- Without RESET and data pulse a run writes no slot, whatever its sync gaps do to the index. -/
theorem runRegs_slotRead_of_not_dataEdge {s : Regs} {is : List Input} (j : Nat)
    (h : along (fun s i => !i.rst && !i.dataEdge s) s is = true) : slotRead (runRegs s is) j = slotRead s j := by
  refine runRegs_induction (Q := fun r => slotRead r j = slotRead s j) (fun r i hkept hnow => ?_) s is rfl h
  obtain ⟨hr, hedge⟩ : i.rst = false ∧ i.dataEdge r = false := by simpa using hnow
  by_contra hne
  have hdata := (cycle_slotRead_ne hr fun hcycle => hne (hcycle.trans hkept)).1
  exact Bool.false_ne_true (hedge.symm.trans hdata)

/-- Settles O29: up to the sync gap the index stays above the first four slots (`runRegs_slotRead_of_lt_idx`), and from
there no data pulse writes one (`runRegs_slotRead_of_not_dataEdge`). -/
theorem firstFourSlotsAreStableUntilTheNextFrame : Obligations.FirstFourSlotsAreStableUntilTheNextFrame := by
  unfold Obligations.FirstFourSlotsAreStableUntilTheNextFrame
  intro s is js hs hidx his hjs j hj
  calc slotRead (runRegs s (is ++ js)) j
      = slotRead (runRegs (runRegs s is) js) j := by rw [runRegs_append]
    _ = slotRead (runRegs s is) j := runRegs_slotRead_of_not_dataEdge j hjs
    _ = slotRead s j := runRegs_slotRead_of_lt_idx hs (by omega) his

/-! ### A stream without sync gaps -/

/-- With no slot left an EDGE that is no sync gap takes its timestamp alone, and shows a data pulse as an overrun
(40_decoder.md R86, R91). -/
theorem edgeOp_of_no_slot_left {s : Regs} {ts : Ts} (hfull : s.slots.length ≤ s.idx.toNat)
    (hw : ¬ syncWidth (ruleWidth s ts)) : (edgeOp s.cfg s ts).regs = { s with prevTs := ts } ∧
      (dataWidth (ruleWidth s ts) → (edgeOp s.cfg s ts).evClass = .overrun) := by
  rcases edgeOp_cases s ts with h | h | ⟨h, hi⟩ | ⟨h, hi⟩
  · exact absurd h hw
  · rw [edgeOp_noise h]
    exact ⟨rfl, fun hdata => by omega⟩
  · omega
  · rw [edgeOp_overrun h hi]
    exact ⟨rfl, fun _ => rfl⟩

/-- With no slot left a cycle without RESET and sync gap keeps the index and every slot, and a data width it shows is that
of an overrun. -/
theorem cycle_of_no_slot_left {s : Regs} {i : Input} (hfull : s.slots.length ≤ s.idx.toNat)
    (h : (!i.rst && !i.syncEdge s) = true) :
    (cycle s.cfg s i).1.idx = s.idx ∧ (cycle s.cfg s i).1.slots = s.slots ∧
      (dataWidth (cycle s.cfg s i).2.evWidth.toNat → (cycle s.cfg s i).2.evClass = .overrun) := by
  obtain ⟨hr, hw⟩ := not_reset_not_syncEdge_iff.mp h
  obtain ⟨hclass, hwidth⟩ := cycle_event (s := s) hr
  rw [hclass, hwidth]
  cases he : i.edgeValid
  · rw [cycle_noEdge hr he]
    have hnone : ¬ dataWidth 0 := by decide
    exact ⟨rfl, rfl, fun hdata => absurd hdata hnone⟩
  · obtain ⟨hregs, hoverrun⟩ := edgeOp_of_no_slot_left hfull (hw he)
    rw [cycle_edge hr he, hregs]
    exact ⟨rfl, rfl, hoverrun⟩

/-- Settles O30, by induction on the inputs: `cycle_of_no_slot_left` leaves the rest of the run with no slot left again. -/
theorem streamWithoutSyncGapsOnlyOverruns : Obligations.StreamWithoutSyncGapsOnlyOverruns := by
  unfold Obligations.StreamWithoutSyncGapsOnlyOverruns
  intro s is hfull halong
  induction is generalizing s with
  | nil => exact ⟨rfl, rfl, fun o ho => absurd ho List.not_mem_nil⟩
  | cons i is ih =>
    obtain ⟨hnow, hrest⟩ := (Bool.and_eq_true _ _).mp halong
    obtain ⟨hidx, hslots, hoverrun⟩ := cycle_of_no_slot_left hfull.ge hnow
    obtain ⟨hidxs, hslotss, hoverruns⟩ := ih _ (by rw [hidx, hslots, hfull]) hrest
    exact ⟨hidxs.trans hidx, hslotss.trans hslots, List.forall_mem_cons.mpr ⟨hoverrun, hoverruns⟩⟩

end Sys2Proof.Machine
